-- ==== Sys2Proof/Word.lean ====
section
/-!
DEFINITION. The word types of the machine (R5, R7, R8): every value is an unsigned integer of a stated width, bit 0 the
least significant.
-/

namespace Sys2Proof

/-- A general register, a timer or a memory cell: 8 bits (R20, R29, R30, R34). -/
abbrev Byte := BitVec 8

/-- `pc`, `I`, a stack entry or an instruction: 16 bits (R23, R26, R27, R70). -/
abbrev Word := BitVec 16

/-- A register index field `x` or `y`: 4 bits, so every value names a register (R20, R72). -/
abbrev Reg := BitVec 4

/-- The sprite height field `n`: 4 bits, 0 to 15 rows (R72, R74). -/
abbrev Rows := BitVec 4

/-- A key number, 0 to 15 (R36). -/
abbrev Key := BitVec 4

/-- The immediate address field `nnn`: 12 bits (R72, R74). -/
abbrev Addr12 := BitVec 12

end Sys2Proof
end

