-- ==== Sys2Proof/Config.lean ====
section
/-!
DEFINITION. The fixed parameters of the hardware (R5) and its one free value, the random byte of Cxkk (R132).
-/

namespace Sys2Proof.Config

/-- `MEM_SIZE`: addresses 0x000 to 0xFFF (R5, R50). -/
def memSize : Nat := 4096

/-- `ENTRY`: the value of pc after reset and the load address (R5, R23, R205). -/
def entry : Word := 0x200#16

/-- `PROG_MAX`: the largest loadable image, `4096 - 0x200` bytes (R5, R206). -/
def progMax : Nat := 3584

/-- `STACK_DEPTH` (R5, R27). -/
def stackDepth : Nat := 16

/-- The byte drawn by the k-th execution of Cxkk (R132): a FREE VALUE, nothing constrains it (D16: "A draw: a free 8-bit
input per execution, under no law").
DESIGN CHOICE: the draws are numbered by the counter `State.draws`; safe: no proof can see a value (log entry 1). -/
opaque randomByte : Nat → Byte

end Sys2Proof.Config
end

