-- ==== Sys2Proof/Machine/Memory.lean ====
section
/-!
DEFINITION. The memory `MEM` (R34, R50): a list of address and byte pairs in one canonical form, what an unlisted address
reads as (the contents after reset, R40 and R200), and reading and writing a byte.
-/

namespace Sys2Proof.Machine

/-- `MEM` as data: the listed cells, addresses strictly rising; every other cell holds `memDefault`. -/
abbrev Memory := List Host.Cell

/-- `FONT_BASE` (R58). The source only says "conventionally starting at 0x50"; the spec's decision D4 (log entry 2). -/
def fontBase : Nat := 0x050

/-- `FONT_LEN` (R5). -/
def fontLen : Nat := 80

/-- `FONT_TABLE` at its default (R58): the conventional font, supplied by the spec from general knowledge (D5, G1; log entry 2). -/
def fontTable : List Byte :=
  [0xF0, 0x90, 0x90, 0x90, 0xF0,  0x20, 0x60, 0x20, 0x20, 0x70,  0xF0, 0x10, 0xF0, 0x80, 0xF0,  0xF0, 0x10, 0xF0, 0x10, 0xF0] ++
  [0x90, 0x90, 0xF0, 0x10, 0x10,  0xF0, 0x80, 0xF0, 0x10, 0xF0,  0xF0, 0x80, 0xF0, 0x90, 0xF0,  0xF0, 0x10, 0x20, 0x40, 0x40] ++
  [0xF0, 0x90, 0xF0, 0x90, 0xF0,  0xF0, 0x90, 0xF0, 0x10, 0xF0,  0xF0, 0x90, 0xF0, 0x90, 0x90,  0xE0, 0x90, 0xE0, 0x90, 0xE0] ++
  [0xF0, 0x80, 0x80, 0x80, 0xF0,  0xE0, 0x90, 0x90, 0x90, 0xE0,  0xF0, 0x80, 0xF0, 0x80, 0xF0,  0xF0, 0x80, 0xF0, 0x80, 0x80]

/-- The default font as the argument `FONT_TABLE : 80 bytes` of D5: byte k of the table. -/
def fontByte (k : Fin fontLen) : Byte := fontTable.getD k.val 0

/-- What Reset leaves at an address, for the two arguments that R6 leaves open: `FONT_TABLE` at its place and `MEM_INIT`
everywhere else (R40, R56, R200). -/
def resetByte (font : Fin fontLen → Byte) (memInit : Nat → Byte) (a : Nat) : Byte :=
  if h : fontBase ≤ a ∧ a < fontBase + fontLen then font ⟨a - fontBase, by omega⟩ else memInit a

/-- What an unlisted address reads as: what Reset leaves there with both arguments at their defaults, the conventional font and
zero. The spec's decisions D5 and D6; unsafe where a program reads a cell nothing has written (log entries 2 and 3). -/
def memDefault (a : Nat) : Byte := resetByte fontByte (fun _ => 0) a

/-- The byte at an address: the listed cell's, else `memDefault`. -/
def Memory.read : Memory → Nat → Byte
  | [], a => memDefault a
  | c :: rest, a => if c.1 = a then c.2 else Memory.read rest a

/-- Insert a cell before the first cell with a higher address. -/
def Memory.insert : Memory → Host.Cell → Memory
  | [], c => [c]
  | d :: rest, c => if c.1 < d.1 then c :: d :: rest else d :: Memory.insert rest c

/-- Remove every cell of an address. -/
def Memory.erase (m : Memory) (a : Nat) : Memory := m.filter (fun c => decide (c.1 ≠ a))

/-- Write a byte. Writing what an unlisted address reads as removes the cell, so equal memories are equal lists.
An address above 0xFFF has no cell (R50) and is not listed; every instruction tests its range before it writes (R63). -/
def Memory.write (m : Memory) (a : Nat) (b : Byte) : Memory :=
  if a < Config.memSize then
    if b = memDefault a then Memory.erase m a else Memory.insert (Memory.erase m a) (a, b)
  else m

/-- The canonical form: addresses of the memory, strictly rising, and no cell equal to what an unlisted address reads as. -/
def Memory.wf : Memory → Bool
  | [] => true
  | c :: rest =>
    decide (c.1 < Config.memSize) && decide (c.2 ≠ memDefault c.1) && rest.all (fun d => decide (c.1 < d.1)) && Memory.wf rest

/-- The bytes at `a, a+1, ..., a+n-1`, in ascending order (R51). -/
def Memory.readBytes (m : Memory) (a : Nat) : Nat → List Byte
  | 0 => []
  | n + 1 => m.read a :: m.readBytes (a + 1) n

/-- Store bytes at ascending addresses from `a` (R51). -/
def Memory.writeBytes (m : Memory) (a : Nat) : List Byte → Memory
  | [] => m
  | b :: bs => Memory.writeBytes (m.write a b) (a + 1) bs

/-- Every access of `n` bytes from `a` lies in memory: for `n > 0`, `a + n - 1 ≤ 0xFFF`, as integers (R10, R63, D1). -/
def inMemory (a : Word) (n : Nat) : Bool := decide (n = 0 ∨ a.toNat + n ≤ Config.memSize)

/-- Memory after a Reset with any `FONT_TABLE` and `MEM_INIT` (R6, R200), in the canonical form. -/
def Memory.ofReset (font : Fin fontLen → Byte) (memInit : Nat → Byte) : Memory :=
  (List.range Config.memSize).foldl (fun m a => m.write a (resetByte font memInit a)) []

end Sys2Proof.Machine
end

