-- ==== Sys2Proof/Machine/State.lean ====
section
/-!
DEFINITION. The state of the machine as plain data (10_state.md), the reasons a step or the start-up can stop, and the state
after the Reset event (R40, R200).
-/

namespace Sys2Proof.Machine

/-- Execution State `ES` (R31). -/
inductive ExecState where
  | running
  | awaitingKey
  | haltedError
  | stopped
  deriving DecidableEq, Repr

/-- Error cause `ERR`: which fault moved ES to HALTED_ERROR (R33, R170). -/
inductive ErrorCause where
  | none
  | stackOverflow
  | stackUnderflow
  | addressRange
  | keyIndexRange
  deriving DecidableEq, Repr

/-- The display buffer, row-major: 32 rows of 64 pixels (R35). -/
abbrev Display := Vector (Vector Bool 64) 32

/-- Every piece of state the spec gives the machine (R20 to R36, R39), and one counter of the model's own. -/
structure State where
  /-- `V[0]` to `V[15]`; V15 is also the flag (R20, R21, R25). -/
  v : Vector Byte 16
  /-- The address register `I` (R26). -/
  i : Word
  /-- The program counter (R23). -/
  pc : Word
  /-- The call stack `STACK[0]` to `STACK[15]` (R27). -/
  stack : Vector Word 16
  /-- The stack depth `SP`, 0 to 16 (R28). -/
  sp : Fin 17
  /-- The delay timer (R29). -/
  dt : Byte
  /-- The sound timer (R30). -/
  st : Byte
  /-- `MEM` (R34). -/
  mem : Memory
  /-- `DISP` (R35). -/
  disp : Display
  /-- `KEYS`: the keypad levels, an input changed only by KeyDown and KeyUp (R36). -/
  keys : Vector Bool 16
  /-- Execution State (R31). -/
  es : ExecState
  /-- Error cause (R33). -/
  err : ErrorCause
  /-- `WAITREG`, the register index remembered by Fx0A (R32). -/
  waitReg : Reg
  /-- The model's own: how many free bytes Cxkk has drawn (log entry 1). -/
  draws : Nat
  deriving DecidableEq, Repr

/-- Why the start-up stops. No Step ends in one of these: a Step's fault is a next state (R185). -/
inductive Fault where
  /-- Raised by `load` for an image longer than 3584 bytes, which is refused with no byte written (R176, R206). Safe: the
  spec says that no Step is ever delivered after it. -/
  | programTooLarge
  /-- Raised by `launchFrom` (and so by `launch`) when the host could not read the image (R176, R206). Safe: no Load event and no Step happens. -/
  | sourceUnavailable
  deriving DecidableEq, Repr

/-- Why the model has no meaning for an instruction. -/
inductive Refusal where
  /-- Raised by an arm of `exec` whose instruction has no meaning yet. Safe: the model stops where the machine goes on. No
  arm raises it: every instruction has its meaning. -/
  | notModelled (mnemonic : String)
  deriving DecidableEq, Repr

/-- What a step or a start-up event answers. -/
abbrev Result := Host.Outcome State Fault Refusal

/-- The state after the Reset event with the default parameters (R40, R200). The values the source does not list (ES, ERR,
WAITREG, DISP, other memory) are the spec's decision D6; KEYS is D27; `draws` is the model's own (log entries 1, 3, 5, 6). -/
def State.reset : State where
  v := Vector.replicate 16 0
  i := 0
  pc := Config.entry
  stack := Vector.replicate 16 0
  sp := 0
  dt := 0
  st := 0
  mem := []
  disp := Vector.replicate 32 (Vector.replicate 64 false)
  keys := Vector.replicate 16 false
  es := .running
  err := .none
  waitReg := 0
  draws := 0

end Sys2Proof.Machine
end

