-- ==== Sys2Proof/Machine/Ops.lean ====
section
/-!
DEFINITION. The named operations over registers, pc, stack, memory, display and control state, and fault entry: everything
the meanings are built from.

Fault entry is ONE operation, `State.raise` (R185). There is no return from it: no instruction and no event leads from
HALTED_ERROR back to RUNNING (R186), so no operation for a return stands beside it.
-/

namespace Sys2Proof.Machine

/-! ### General registers (R20) -/

/-- Read `V[x]`. -/
def State.reg (s : State) (x : Reg) : Byte := s.v[x.toNat]'(x.isLt)

/-- Write `V[x]`. No register is hard-wired (R20). -/
def State.setReg (s : State) (x : Reg) (b : Byte) : State := { s with v := s.v.set x.toNat b x.isLt }

/-- The number of the flag register, V15 (R21). -/
def flagReg : Reg := 0xF#4

/-! ### pc (R23, R24, R92, R100) -/

/-- `npc = (pc + 2) mod 65536`, what an instruction sees as the current pc (R92). -/
def State.npc (s : State) : Word := s.pc + 2

/-- `pc <- target`. -/
def State.setPc (s : State) (target : Word) : State := { s with pc := target }

/-- `pc <- npc`, the end of every instruction that does not assign pc (R92). -/
def State.advance (s : State) : State := s.setPc s.npc

/-- A skip: `pc <- (npc + 2) mod 65536` if the condition holds, else `pc <- npc` (R100). -/
def State.skipIf (s : State) (c : Bool) : State := s.setPc (if c then s.npc + 2 else s.npc)

/-! ### Fault entry (R185) -/

/-- Fault entry: ES and ERR are written and nothing else; pc stays at the faulting instruction (R11, R94, R185, C1). -/
def State.raise (s : State) (c : ErrorCause) : State := { s with es := .haltedError, err := c }

/-! ### The address register and the timers -/

/-- `I <- a` (R26). -/
def State.setI (s : State) (a : Word) : State := { s with i := a }

/-- `DT <- b` (R29). -/
def State.setDT (s : State) (b : Byte) : State := { s with dt := b }

/-- `ST <- b` (R30). -/
def State.setST (s : State) (b : Byte) : State := { s with st := b }

/-! ### The call stack (R27, R28) -/

/-- Push: `STACK[SP] <- a; SP <- SP + 1`, for a stack that is not full (R103); a full stack has no such slot and is left as
it is (its callers raise StackOverflow instead). -/
def State.push (s : State) (a : Word) : State :=
  if h : s.sp.val < 16 then { s with stack := s.stack.set s.sp.val a h, sp := ⟨s.sp.val + 1, by omega⟩ } else s

/-- `STACK[SP - 1]`, the most recent live entry, if there is one (R101). -/
def State.top? (s : State) : Option Word :=
  if h : 0 < s.sp.val then some (s.stack[s.sp.val - 1]'(by omega)) else none

/-- `SP <- SP - 1`; the popped slot keeps its value (R27, R101). -/
def State.drop (s : State) : State := { s with sp := ⟨s.sp.val - 1, by omega⟩ }

/-! ### Memory (R50, R51) -/

/-- Replace memory. -/
def State.setMem (s : State) (m : Memory) : State := { s with mem := m }

/-- Store bytes at ascending addresses from `a` (R51). -/
def State.storeBytes (s : State) (a : Nat) (bs : List Byte) : State := s.setMem (s.mem.writeBytes a bs)

/-- `V[k] <- MEM[a + k]` for each `k` of the list, in order (R145). -/
def State.loadEach (s : State) (a : Nat) : List Nat → State
  | [] => s
  | k :: ks => State.loadEach (s.setReg (BitVec.ofNat 4 k) (s.mem.read (a + k))) a ks

/-! ### The display (R35, R152) -/

/-- `DISP[r][c]`; false for a pixel that does not exist. -/
def Display.pixel (d : Display) (r c : Nat) : Bool :=
  if h : r < 32 ∧ c < 64 then (d[r]'h.1)[c]'h.2 else false

/-- `DISP[r][c] <- DISP[r][c] XOR 1`. -/
def Display.flip (d : Display) (r c : Nat) : Display :=
  if h : r < 32 ∧ c < 64 then d.set r ((d[r]'h.1).set c (!((d[r]'h.1)[c]'h.2)) h.2) h.1 else d

/-- The clear display (R150). -/
def Display.clear : Display := Vector.replicate 32 (Vector.replicate 64 false)

/-- Replace the display. -/
def State.setDisp (s : State) (d : Display) : State := { s with disp := d }

/-- A display being drawn on, and whether a pixel that was 1 has been hit so far (R151). -/
structure Canvas where
  disp : Display
  hit : Bool
  deriving DecidableEq, Repr

/-- One sprite bit that is 1: note a collision if the pixel is 1, and flip the pixel (R151). -/
def Canvas.plot (k : Canvas) (r c : Nat) : Canvas where
  disp := Display.flip k.disp r c
  hit := k.hit || Display.pixel k.disp r c

/-- The column loop of R151 over the listed column offsets: it ends early at the right edge, and sprite bit `7 - c` belongs
to column offset `c` (R152). -/
def Canvas.drawBits (k : Canvas) (row : Byte) (r x0 : Nat) : List Nat → Canvas
  | [] => k
  | c :: cs =>
    if 64 ≤ x0 + c then k
    else Canvas.drawBits (if row.getLsbD (7 - c) then k.plot r (x0 + c) else k) row r x0 cs

/-- The row loop of R151 from row `r` on, one byte a row: it ends early at the bottom edge. -/
def Canvas.drawRows (k : Canvas) (r x0 : Nat) : List Byte → Canvas
  | [] => k
  | row :: rows =>
    if 32 ≤ r then k
    else Canvas.drawRows (k.drawBits row r x0 [0, 1, 2, 3, 4, 5, 6, 7]) (r + 1) x0 rows

/-! ### The keypad and control state -/

/-- `KEYS[k]` (R36). -/
def State.key (s : State) (k : Key) : Bool := s.keys[k.toNat]'(k.isLt)

/-- `KEYS[k] <- b` (R181, R182). -/
def State.setKey (s : State) (k : Key) (b : Bool) : State := { s with keys := s.keys.set k.toNat b k.isLt }

/-- `ES <- e` (R31). -/
def State.setES (s : State) (e : ExecState) : State := { s with es := e }

/-- `WAITREG <- x; ES <- AWAITING_KEY` (R162). -/
def State.awaitKey (s : State) (x : Reg) : State := { s with es := .awaitingKey, waitReg := x }

/-- The free byte this execution of Cxkk draws (R132; log entry 1). -/
def State.drawByte (s : State) : Byte := Config.randomByte s.draws

/-- The draw has been taken: the next one is another free byte (log entry 1). -/
def State.nextDraw (s : State) : State := { s with draws := s.draws + 1 }

end Sys2Proof.Machine
end

