-- ==== Sys2Proof/Machine/Flags.lean ====
section
/-!
DEFINITION. The arithmetic results and flag values (R120, R127 to R131), and the two write orders of R133.
A flag is the byte 0x00 or 0x01 (R25).
-/

namespace Sys2Proof.Machine

/-- A flag as a byte: 0x00 or 0x01 (R25). -/
def flagByte (c : Bool) : Byte := if c then 1 else 0

/-- The exact sum, reduced modulo 256 (R120, R122, R127). -/
def addResult (a b : Byte) : Byte := BitVec.ofNat 8 (a.toNat + b.toNat)

/-- Carry out: the exact sum is greater than 255 (R127). -/
def carryOut (a b : Byte) : Bool := decide (255 < a.toNat + b.toNat)

/-- The exact difference, an integer that may be negative, reduced modulo 256 (R120, R128, R130). -/
def subResult (a b : Byte) : Byte := BitVec.ofInt 8 ((a.toNat : Int) - (b.toNat : Int))

/-- No borrow: minuend at least subtrahend (R120, R128, R130). -/
def noBorrow (a b : Byte) : Bool := decide (b.toNat ≤ a.toNat)

/-- `b >> 1`: a 0 is shifted in (R129). -/
def shrResult (b : Byte) : Byte := b >>> 1

/-- The bit that SHR shifts out, `b[0]` (R129). -/
def shrOut (b : Byte) : Bool := b.getLsbD 0

/-- `(b << 1) mod 256`: a 0 is shifted in (R131). -/
def shlResult (b : Byte) : Byte := b <<< 1

/-- The bit that SHL shifts out, `b[7]` (R131). -/
def shlOut (b : Byte) : Bool := b.getLsbD 7

/-- Write `V[x]` and then the flag: with `x = 15` the flag stands (R133: 8xy1, 8xy2, 8xy3, 8xy4). -/
def State.resultThenFlag (s : State) (x : Reg) (result : Byte) (flag : Bool) : State :=
  (s.setReg x result).setReg flagReg (flagByte flag)

/-- Write the flag and then `V[x]`: with `x = 15` the result stands (R133: 8xy5, 8xy6, 8xy7, 8xyE). -/
def State.flagThenResult (s : State) (x : Reg) (result : Byte) (flag : Bool) : State :=
  (s.setReg flagReg (flagByte flag)).setReg x result

end Sys2Proof.Machine
end

