-- ==== Sys2Proof/Machine/Operands.lean ====
section
/-!
DEFINITION. The operand forms (R74, R146, R152): zero extension, the glyph address, the decimal digits, the sprite's starting
coordinates and bytes, the register range of the bulk transfers.
-/

namespace Sys2Proof.Machine

/-- `zext_16(nnn)` (R74). -/
def addrOf (nnn : Addr12) : Word := nnn.zeroExtend 16

/-- `zext_16` of a register value (R8, R104, R141). -/
def wordOf (b : Byte) : Word := b.zeroExtend 16

/-- `FONT_BASE + 5 * zext_16(Vx)`: the formula on all 8 bits (R142, D3). -/
def glyphAddr (b : Byte) : Word := BitVec.ofNat 16 (fontBase + 5 * b.toNat)

/-- Hundreds, tens, ones, one digit a byte (R143). -/
def decimalDigits (b : Byte) : List Byte :=
  [BitVec.ofNat 8 (b.toNat / 100), BitVec.ofNat 8 (b.toNat / 10 % 10), BitVec.ofNat 8 (b.toNat % 10)]

/-- The starting column of a sprite, `Vx mod 64` (R151). -/
def startCol (b : Byte) : Nat := b.toNat % 64

/-- The starting row of a sprite, `Vy mod 32` (R151). -/
def startRow (b : Byte) : Nat := b.toNat % 32

/-- How many bytes Fx55 and Fx65 move: `x + 1` (R144, R145). -/
def transferCount (x : Reg) : Nat := x.toNat + 1

/-- `V0` to `Vx` in ascending order (R144). -/
def State.regsUpTo (s : State) (x : Reg) : List Byte :=
  (List.range (transferCount x)).map (fun k => s.reg (BitVec.ofNat 4 k))

/-- `I` after a bulk transfer: `(I + x + 1) mod 65536` (R144, R145). -/
def State.iAfterTransfer (s : State) (x : Reg) : Word := s.i + BitVec.ofNat 16 (transferCount x)

/-- The n sprite bytes at `I` (R151). -/
def State.spriteBytes (s : State) (n : Rows) : List Byte := s.mem.readBytes s.i.toNat n.toNat

end Sys2Proof.Machine
end

