-- ==== Sys2Proof/Machine/Alu.lean ====
section
/-!
DEFINITION. Register loads, logic, arithmetic, shifts, random (42_register_alu.md): 6xkk, 7xkk, 8xy0 to 8xy7, 8xyE, Cxkk. Every
operand is read from the state the instruction began in (R133), none of them faults, and each ends with `pc <- npc`.
-/

namespace Sys2Proof.Machine

/-- 6xkk (R121). -/
def execLdImm (x : Reg) (kk : Byte) (s : State) : Result := .next (s.setReg x kk).advance

/-- 7xkk: no flag (R122). -/
def execAddImm (x : Reg) (kk : Byte) (s : State) : Result := .next (s.setReg x (addResult (s.reg x) kk)).advance

/-- 8xy0 (R123). -/
def execLdReg (x y : Reg) (s : State) : Result := .next (s.setReg x (s.reg y)).advance

/-- 8xy1: V15 is cleared (R124). -/
def execOrReg (x y : Reg) (s : State) : Result := .next (s.resultThenFlag x (s.reg x ||| s.reg y) false).advance

/-- 8xy2: V15 is cleared (R125). -/
def execAndReg (x y : Reg) (s : State) : Result := .next (s.resultThenFlag x (s.reg x &&& s.reg y) false).advance

/-- 8xy3: V15 is cleared (R126). -/
def execXorReg (x y : Reg) (s : State) : Result := .next (s.resultThenFlag x (s.reg x ^^^ s.reg y) false).advance

/-- 8xy4: V15 is the carry (R127). -/
def execAddReg (x y : Reg) (s : State) : Result :=
  .next (s.resultThenFlag x (addResult (s.reg x) (s.reg y)) (carryOut (s.reg x) (s.reg y))).advance

/-- 8xy5: V15 is 1 when there is no borrow (R128). -/
def execSubReg (x y : Reg) (s : State) : Result :=
  .next (s.flagThenResult x (subResult (s.reg x) (s.reg y)) (noBorrow (s.reg x) (s.reg y))).advance

/-- 8xy6: shifts Vy, not Vx (R129). -/
def execShrReg (x y : Reg) (s : State) : Result :=
  .next (s.flagThenResult x (shrResult (s.reg y)) (shrOut (s.reg y))).advance

/-- 8xy7: Vy minus Vx (R130). -/
def execSubnReg (x y : Reg) (s : State) : Result :=
  .next (s.flagThenResult x (subResult (s.reg y) (s.reg x)) (noBorrow (s.reg y) (s.reg x))).advance

/-- 8xyE: shifts Vy, not Vx (R131). -/
def execShlReg (x y : Reg) (s : State) : Result :=
  .next (s.flagThenResult x (shlResult (s.reg y)) (shlOut (s.reg y))).advance

/-- Cxkk: a free byte masked with kk (R132). -/
def execRnd (x : Reg) (kk : Byte) (s : State) : Result := .next (s.setReg x (s.drawByte &&& kk)).nextDraw.advance

end Sys2Proof.Machine
end

