-- ==== Sys2Proof/Machine/Control.lean ====
section
/-!
DEFINITION. Control transfer (41_control_flow.md): 00EE, 1nnn, 2nnn, Bnnn, 3xkk, 4xkk, 5xy0, 9xy0. Each meaning runs inside a
Step with ES = RUNNING, on the state whose pc is the address of the instruction (R92).
-/

namespace Sys2Proof.Machine

/-- 00EE: return; StackUnderflow on an empty stack (R101, R172). -/
def execRet (s : State) : Result :=
  match s.top? with
  | some target => .next (s.drop.setPc target)
  | none => .next (s.raise .stackUnderflow)

/-- 1nnn: jump (R102). -/
def execJp (nnn : Addr12) (s : State) : Result := .next (s.setPc (addrOf nnn))

/-- 2nnn: call; StackOverflow on a full stack (R103, R171). -/
def execCall (nnn : Addr12) (s : State) : Result :=
  if s.sp.val < Config.stackDepth then .next ((s.push s.npc).setPc (addrOf nnn)) else .next (s.raise .stackOverflow)

/-- Bnnn: jump to `nnn + V0`, in 16 bits (R104). -/
def execJpV0 (nnn : Addr12) (s : State) : Result := .next (s.setPc (addrOf nnn + wordOf (s.reg 0)))

/-- 3xkk: skip if `Vx = kk` (R105). -/
def execSeImm (x : Reg) (kk : Byte) (s : State) : Result := .next (s.skipIf (decide (s.reg x = kk)))

/-- 4xkk: skip if `Vx != kk` (R106). -/
def execSneImm (x : Reg) (kk : Byte) (s : State) : Result := .next (s.skipIf (decide (s.reg x ≠ kk)))

/-- 5xy0: skip if `Vx = Vy` (R107). -/
def execSeReg (x y : Reg) (s : State) : Result := .next (s.skipIf (decide (s.reg x = s.reg y)))

/-- 9xy0: skip if `Vx != Vy` (R108). -/
def execSneReg (x y : Reg) (s : State) : Result := .next (s.skipIf (decide (s.reg x ≠ s.reg y)))

end Sys2Proof.Machine
end

