-- ==== Sys2Proof/Machine/Draw.lean ====
section
/-!
DEFINITION. Display clear and sprite draw (44_display.md): 00E0, Dxyn.
-/

namespace Sys2Proof.Machine

/-- 00E0 (R150). -/
def execCls (s : State) : Result := .next (s.setDisp Display.clear).advance

/-- The sprite of Dxyn drawn on the display, from the operands sampled at the start (R151, R133). -/
def State.drawSprite (s : State) (x y : Reg) (n : Rows) : Canvas :=
  Canvas.drawRows ⟨s.disp, false⟩ (startRow (s.reg y)) (startCol (s.reg x)) (s.spriteBytes n)

/-- Dxyn: XOR draw, V15 is the collision flag; AddressRange when `n > 0` and `I + n - 1 > 0xFFF`, whatever is clipped
(R151, R173, D14). -/
def execDrw (x y : Reg) (n : Rows) (s : State) : Result :=
  if inMemory s.i n.toNat then
    .next ((s.setDisp (s.drawSprite x y n).disp).setReg flagReg (flagByte (s.drawSprite x y n).hit)).advance
  else .next (s.raise .addressRange)

end Sys2Proof.Machine
end

