-- ==== Sys2Proof/Machine/Index.lean ====
section
/-!
DEFINITION. The address register, loads and stores (43_index_memory.md): Annn, Fx1E, Fx29, Fx33, Fx55, Fx65. The whole range of
a transfer is tested before any byte moves (R63, R146). None of them writes V15 as a flag; each ends with `pc <- npc`.
-/

namespace Sys2Proof.Machine

/-- Annn (R140). -/
def execLdI (nnn : Addr12) (s : State) : Result := .next (s.setI (addrOf nnn)).advance

/-- Fx1E: 16-bit wrap, no flag (R141). -/
def execAddI (x : Reg) (s : State) : Result := .next (s.setI (s.i + wordOf (s.reg x))).advance

/-- Fx29: the glyph of the digit Vx (R142). -/
def execLdF (x : Reg) (s : State) : Result := .next (s.setI (glyphAddr (s.reg x))).advance

/-- Fx33: three decimal digits at I; AddressRange when `I + 2 > 0xFFF` (R143, R173). -/
def execLdB (x : Reg) (s : State) : Result :=
  if inMemory s.i 3 then .next (s.storeBytes s.i.toNat (decimalDigits (s.reg x))).advance
  else .next (s.raise .addressRange)

/-- Fx55: V0 to Vx into memory at I, I advanced; AddressRange when `I + x > 0xFFF` (R144, R173). -/
def execStoreRegs (x : Reg) (s : State) : Result :=
  if inMemory s.i (transferCount x) then
    .next ((s.storeBytes s.i.toNat (s.regsUpTo x)).setI (s.iAfterTransfer x)).advance
  else .next (s.raise .addressRange)

/-- Fx65: V0 to Vx from memory at I, I advanced; AddressRange when `I + x > 0xFFF` (R145, R173). -/
def execLoadRegs (x : Reg) (s : State) : Result :=
  if inMemory s.i (transferCount x) then
    .next ((s.loadEach s.i.toNat (List.range (transferCount x))).setI (s.iAfterTransfer x)).advance
  else .next (s.raise .addressRange)

end Sys2Proof.Machine
end

