-- ==== Sys2Proof/Machine/Keypad.lean ====
section
/-!
DEFINITION. Keypad tests, key wait, timer access (45_keypad_timers.md): Ex9E, ExA1, Fx0A, Fx07, Fx15, Fx18.
-/

namespace Sys2Proof.Machine

/-- The key that a register value names: 0 to 15; a larger value names no key and is not masked (R166). -/
def keyNamed? (b : Byte) : Option Key := if b.toNat ≤ 15 then some (b.extractLsb' 0 4) else none

/-- Ex9E: skip if the key is down; KeyIndexRange when `Vx > 15` (R160, R174). -/
def execSkp (x : Reg) (s : State) : Result :=
  match keyNamed? (s.reg x) with
  | some k => .next (s.skipIf (s.key k))
  | none => .next (s.raise .keyIndexRange)

/-- ExA1: skip if the key is up; KeyIndexRange when `Vx > 15` (R161, R174). -/
def execSknp (x : Reg) (s : State) : Result :=
  match keyNamed? (s.reg x) with
  | some k => .next (s.skipIf (!s.key k))
  | none => .next (s.raise .keyIndexRange)

/-- Fx07 (R163). -/
def execLdVxDT (x : Reg) (s : State) : Result := .next (s.setReg x s.dt).advance

/-- Fx0A: the wait begins; no general register is written now (R162). -/
def execLdVxK (x : Reg) (s : State) : Result := .next (s.awaitKey x).advance

/-- Fx15 (R164). -/
def execLdDTVx (x : Reg) (s : State) : Result := .next (s.setDT (s.reg x)).advance

/-- Fx18 (R165). -/
def execLdSTVx (x : Reg) (s : State) : Result := .next (s.setST (s.reg x)).advance

end Sys2Proof.Machine
end

