-- ==== Sys2Proof/Syntax.lean ====
section
/-!
DEFINITION. The instruction set, whole: one constructor per row of spec/opcode_table.json (R75), in the table's order.
The docstrings give the pattern (the normative name) and the conventional mnemonic (R78).
-/

namespace Sys2Proof

/-- The 34 instructions of R75 with the fields of R72. A word that matches no row is no instruction: the decoder answers
`none` for it, and the step gives it the effect of R95. -/
inductive Instr where
  /-- 00E0, `CLS` (R150). -/
  | cls
  /-- 00EE, `RET` (R101). -/
  | ret
  /-- 1nnn, `JP nnn` (R102). -/
  | jp (nnn : Addr12)
  /-- 2nnn, `CALL nnn` (R103). -/
  | call (nnn : Addr12)
  /-- 3xkk, `SE Vx, kk` (R105). -/
  | seImm (x : Reg) (kk : Byte)
  /-- 4xkk, `SNE Vx, kk` (R106). -/
  | sneImm (x : Reg) (kk : Byte)
  /-- 5xy0, `SE Vx, Vy` (R107). -/
  | seReg (x y : Reg)
  /-- 6xkk, `LD Vx, kk` (R121). -/
  | ldImm (x : Reg) (kk : Byte)
  /-- 7xkk, `ADD Vx, kk` (R122). -/
  | addImm (x : Reg) (kk : Byte)
  /-- 8xy0, `LD Vx, Vy` (R123). -/
  | ldReg (x y : Reg)
  /-- 8xy1, `OR Vx, Vy` (R124). -/
  | orReg (x y : Reg)
  /-- 8xy2, `AND Vx, Vy` (R125). -/
  | andReg (x y : Reg)
  /-- 8xy3, `XOR Vx, Vy` (R126). -/
  | xorReg (x y : Reg)
  /-- 8xy4, `ADD Vx, Vy` (R127). -/
  | addReg (x y : Reg)
  /-- 8xy5, `SUB Vx, Vy` (R128). -/
  | subReg (x y : Reg)
  /-- 8xy6, `SHR Vx, Vy` (R129). -/
  | shrReg (x y : Reg)
  /-- 8xy7, `SUBN Vx, Vy` (R130). -/
  | subnReg (x y : Reg)
  /-- 8xyE, `SHL Vx, Vy` (R131). -/
  | shlReg (x y : Reg)
  /-- 9xy0, `SNE Vx, Vy` (R108). -/
  | sneReg (x y : Reg)
  /-- Annn, `LD I, nnn` (R140). -/
  | ldI (nnn : Addr12)
  /-- Bnnn, `JP V0, nnn` (R104). -/
  | jpV0 (nnn : Addr12)
  /-- Cxkk, `RND Vx, kk` (R132). -/
  | rnd (x : Reg) (kk : Byte)
  /-- Dxyn, `DRW Vx, Vy, n` (R151). -/
  | drw (x y : Reg) (n : Rows)
  /-- Ex9E, `SKP Vx` (R160). -/
  | skp (x : Reg)
  /-- ExA1, `SKNP Vx` (R161). -/
  | sknp (x : Reg)
  /-- Fx07, `LD Vx, DT` (R163). -/
  | ldVxDT (x : Reg)
  /-- Fx0A, `LD Vx, K` (R162). -/
  | ldVxK (x : Reg)
  /-- Fx15, `LD DT, Vx` (R164). -/
  | ldDTVx (x : Reg)
  /-- Fx18, `LD ST, Vx` (R165). -/
  | ldSTVx (x : Reg)
  /-- Fx1E, `ADD I, Vx` (R141). -/
  | addI (x : Reg)
  /-- Fx29, `LD F, Vx` (R142). -/
  | ldF (x : Reg)
  /-- Fx33, `LD B, Vx` (R143). -/
  | ldB (x : Reg)
  /-- Fx55, `LD [I], Vx` (R144). -/
  | storeRegs (x : Reg)
  /-- Fx65, `LD Vx, [I]` (R145). -/
  | loadRegs (x : Reg)
  deriving DecidableEq, Repr

end Sys2Proof
end

