-- ==== Sys2Proof/WellFormed.lean ====
section
/-!
DEFINITION. What makes an instruction or a program image well formed.

The field types of `Instr` have exactly the widths of R72, so every term of `Instr` is well formed (a lemma of
Sys2Proof/Laws/Decode.lean); the checks below say what is checked, on plain numbers, and can fail there.
-/

namespace Sys2Proof

/-- An operand as a number, with the width in bits of the field that must hold it (R72). -/
structure Operand where
  value : Nat
  width : Nat
  deriving DecidableEq, Repr

/-- The value fits its field. -/
def Operand.fits (o : Operand) : Bool := decide (o.value < 2 ^ o.width)

/-- The operands of an instruction, each with the width its format gives it (R72, R73). -/
def Instr.operands : Instr → List Operand
  | .cls | .ret => []
  | .jp nnn | .call nnn | .ldI nnn | .jpV0 nnn => [⟨nnn.toNat, 12⟩]
  | .seImm x kk | .sneImm x kk | .ldImm x kk | .addImm x kk | .rnd x kk => [⟨x.toNat, 4⟩, ⟨kk.toNat, 8⟩]
  | .seReg x y | .ldReg x y | .orReg x y | .andReg x y | .xorReg x y | .addReg x y | .subReg x y
  | .shrReg x y | .subnReg x y | .shlReg x y | .sneReg x y => [⟨x.toNat, 4⟩, ⟨y.toNat, 4⟩]
  | .drw x y n => [⟨x.toNat, 4⟩, ⟨y.toNat, 4⟩, ⟨n.toNat, 4⟩]
  | .skp x | .sknp x | .ldVxDT x | .ldVxK x | .ldDTVx x | .ldSTVx x | .addI x | .ldF x | .ldB x
  | .storeRegs x | .loadRegs x => [⟨x.toNat, 4⟩]

/-- An instruction is well formed when each operand fits its field. -/
def Instr.wellFormed (i : Instr) : Bool := i.operands.all Operand.fits

/-- A program image fits the memory from 0x200 up: at most 3584 bytes (R206). -/
def imageFits (image : List Byte) : Bool := decide (image.length ≤ Config.progMax)

end Sys2Proof
end

