-- ==== Sys2Proof/Decode.lean ====
section
/-!
DEFINITION. Instruction words: their fields (R72), the opcode table (R75), the decoder (R76), the encoder, and the reading of
a word as the host numbers it.
-/

namespace Sys2Proof

/-! ### Fields of an instruction word (R72) -/

/-- The major opcode, `op[15:12]`. -/
def majorField (op : Word) : BitVec 4 := op.extractLsb' 12 4
/-- `x = op[11:8]`. -/
def xField (op : Word) : Reg := op.extractLsb' 8 4
/-- `y = op[7:4]`. -/
def yField (op : Word) : Reg := op.extractLsb' 4 4
/-- `n = op[3:0]`. -/
def nField (op : Word) : BitVec 4 := op.extractLsb' 0 4
/-- `kk = op[7:0]`. -/
def kkField (op : Word) : Byte := op.extractLsb' 0 8
/-- `nnn = op[11:0]`. -/
def nnnField (op : Word) : Addr12 := op.extractLsb' 0 12
/-- The high byte, `op[15:8]`: the byte at the lower address (R52). -/
def highByte (op : Word) : Byte := op.extractLsb' 8 8
/-- The low byte, `op[7:0]`: the byte at the higher address (R52). -/
def lowByte (op : Word) : Byte := op.extractLsb' 0 8
/-- Two bytes as one word, high byte first (R52). -/
def wordOfBytes (hi lo : Byte) : Word := hi ++ lo

/-! ### The decoder (R76) -/

/-- Group 0: all of `op[11:0]` is compared. -/
def decodeGroup0 (op : Word) : Option Instr :=
  if nnnField op = 0x0E0#12 then some .cls
  else if nnnField op = 0x0EE#12 then some .ret
  else none

/-- Groups 5 and 9 require `n = 0`. -/
def decodeIfNZero (op : Word) (i : Instr) : Option Instr :=
  if nField op = 0x0#4 then some i else none

/-- Group 8: selected by `n`. -/
def decodeGroup8 (op : Word) : Option Instr :=
  let x := xField op
  let y := yField op
  let n := nField op
  if n = 0x0#4 then some (.ldReg x y)
  else if n = 0x1#4 then some (.orReg x y)
  else if n = 0x2#4 then some (.andReg x y)
  else if n = 0x3#4 then some (.xorReg x y)
  else if n = 0x4#4 then some (.addReg x y)
  else if n = 0x5#4 then some (.subReg x y)
  else if n = 0x6#4 then some (.shrReg x y)
  else if n = 0x7#4 then some (.subnReg x y)
  else if n = 0xE#4 then some (.shlReg x y)
  else none

/-- Group E: selected by `kk`. -/
def decodeGroupE (op : Word) : Option Instr :=
  let x := xField op
  let kk := kkField op
  if kk = 0x9E#8 then some (.skp x)
  else if kk = 0xA1#8 then some (.sknp x)
  else none

/-- Group F: selected by `kk`. -/
def decodeGroupF (op : Word) : Option Instr :=
  let x := xField op
  let kk := kkField op
  if kk = 0x07#8 then some (.ldVxDT x)
  else if kk = 0x0A#8 then some (.ldVxK x)
  else if kk = 0x15#8 then some (.ldDTVx x)
  else if kk = 0x18#8 then some (.ldSTVx x)
  else if kk = 0x1E#8 then some (.addI x)
  else if kk = 0x29#8 then some (.ldF x)
  else if kk = 0x33#8 then some (.ldB x)
  else if kk = 0x55#8 then some (.storeRegs x)
  else if kk = 0x65#8 then some (.loadRegs x)
  else none

/-- `Decode(op)`: total on the 65536 words; `none` is `Unknown` (R76, R77, R93). -/
def decodeWord (op : Word) : Option Instr :=
  let major := majorField op
  if major = 0x0#4 then decodeGroup0 op
  else if major = 0x1#4 then some (.jp (nnnField op))
  else if major = 0x2#4 then some (.call (nnnField op))
  else if major = 0x3#4 then some (.seImm (xField op) (kkField op))
  else if major = 0x4#4 then some (.sneImm (xField op) (kkField op))
  else if major = 0x5#4 then decodeIfNZero op (.seReg (xField op) (yField op))
  else if major = 0x6#4 then some (.ldImm (xField op) (kkField op))
  else if major = 0x7#4 then some (.addImm (xField op) (kkField op))
  else if major = 0x8#4 then decodeGroup8 op
  else if major = 0x9#4 then decodeIfNZero op (.sneReg (xField op) (yField op))
  else if major = 0xA#4 then some (.ldI (nnnField op))
  else if major = 0xB#4 then some (.jpV0 (nnnField op))
  else if major = 0xC#4 then some (.rnd (xField op) (kkField op))
  else if major = 0xD#4 then some (.drw (xField op) (yField op) (nField op))
  else if major = 0xE#4 then decodeGroupE op
  else decodeGroupF op

/-- Why bytes are not an instruction. -/
inductive DecodeError where
  /-- Fewer than two bytes: no instruction is shorter (R70). -/
  | truncated
  /-- `UnknownOpcode`: the word matches no row of R75 (R77). -/
  | unknownOpcode (op : Word)
  deriving DecidableEq, Repr

/-- The instruction at the head of a list of bytes, with the bytes after it; high byte first (R52, R70, R71). -/
def decode : List Byte → Except DecodeError (Instr × List Byte)
  | hi :: lo :: rest =>
    match decodeWord (wordOfBytes hi lo) with
    | some i => .ok (i, rest)
    | none => .error (.unknownOpcode (wordOfBytes hi lo))
  | _ => .error .truncated

/-! ### The encoder, from the formats of R73 and the matches of R75 -/

/-- Format A: major, nnn. -/
def wordA (major : BitVec 4) (nnn : Addr12) : Word := major ++ nnn
/-- Formats RI and R: major, x, kk (fixed in R). -/
def wordRI (major : BitVec 4) (x : Reg) (kk : Byte) : Word := major ++ x ++ kk
/-- Formats RR and RRN: major, x, y, n (fixed in RR). -/
def wordRRN (major : BitVec 4) (x y : Reg) (n : BitVec 4) : Word := major ++ x ++ y ++ n

/-- The word of an instruction. -/
def encodeWord : Instr → Word
  | .cls => 0x00E0#16
  | .ret => 0x00EE#16
  | .jp nnn => wordA 0x1#4 nnn
  | .call nnn => wordA 0x2#4 nnn
  | .seImm x kk => wordRI 0x3#4 x kk
  | .sneImm x kk => wordRI 0x4#4 x kk
  | .seReg x y => wordRRN 0x5#4 x y 0x0#4
  | .ldImm x kk => wordRI 0x6#4 x kk
  | .addImm x kk => wordRI 0x7#4 x kk
  | .ldReg x y => wordRRN 0x8#4 x y 0x0#4
  | .orReg x y => wordRRN 0x8#4 x y 0x1#4
  | .andReg x y => wordRRN 0x8#4 x y 0x2#4
  | .xorReg x y => wordRRN 0x8#4 x y 0x3#4
  | .addReg x y => wordRRN 0x8#4 x y 0x4#4
  | .subReg x y => wordRRN 0x8#4 x y 0x5#4
  | .shrReg x y => wordRRN 0x8#4 x y 0x6#4
  | .subnReg x y => wordRRN 0x8#4 x y 0x7#4
  | .shlReg x y => wordRRN 0x8#4 x y 0xE#4
  | .sneReg x y => wordRRN 0x9#4 x y 0x0#4
  | .ldI nnn => wordA 0xA#4 nnn
  | .jpV0 nnn => wordA 0xB#4 nnn
  | .rnd x kk => wordRI 0xC#4 x kk
  | .drw x y n => wordRRN 0xD#4 x y n
  | .skp x => wordRI 0xE#4 x 0x9E#8
  | .sknp x => wordRI 0xE#4 x 0xA1#8
  | .ldVxDT x => wordRI 0xF#4 x 0x07#8
  | .ldVxK x => wordRI 0xF#4 x 0x0A#8
  | .ldDTVx x => wordRI 0xF#4 x 0x15#8
  | .ldSTVx x => wordRI 0xF#4 x 0x18#8
  | .addI x => wordRI 0xF#4 x 0x1E#8
  | .ldF x => wordRI 0xF#4 x 0x29#8
  | .ldB x => wordRI 0xF#4 x 0x33#8
  | .storeRegs x => wordRI 0xF#4 x 0x55#8
  | .loadRegs x => wordRI 0xF#4 x 0x65#8

/-- The two bytes of an instruction, high byte first (R52). -/
def encode (i : Instr) : List Byte := [highByte (encodeWord i), lowByte (encodeWord i)]

/-! ### The opcode table (R75) -/

/-- One row of R75: the pattern's name, its match and its mask. -/
structure OpcodeRow where
  pattern : String
  bits : Word
  mask : Word
  deriving DecidableEq, Repr

/-- "A word `op` is the instruction of a row when `op AND mask = match`" (R75). -/
def OpcodeRow.selects (r : OpcodeRow) (op : Word) : Bool := decide (op &&& r.mask = r.bits)

/-- The 34 rows, in the table's order. -/
def opcodeTable : Vector OpcodeRow 34 := #v[
  ⟨"00E0", 0x00E0#16, 0xFFFF#16⟩, ⟨"00EE", 0x00EE#16, 0xFFFF#16⟩, ⟨"1nnn", 0x1000#16, 0xF000#16⟩,
  ⟨"2nnn", 0x2000#16, 0xF000#16⟩, ⟨"3xkk", 0x3000#16, 0xF000#16⟩, ⟨"4xkk", 0x4000#16, 0xF000#16⟩,
  ⟨"5xy0", 0x5000#16, 0xF00F#16⟩, ⟨"6xkk", 0x6000#16, 0xF000#16⟩, ⟨"7xkk", 0x7000#16, 0xF000#16⟩,
  ⟨"8xy0", 0x8000#16, 0xF00F#16⟩, ⟨"8xy1", 0x8001#16, 0xF00F#16⟩, ⟨"8xy2", 0x8002#16, 0xF00F#16⟩,
  ⟨"8xy3", 0x8003#16, 0xF00F#16⟩, ⟨"8xy4", 0x8004#16, 0xF00F#16⟩, ⟨"8xy5", 0x8005#16, 0xF00F#16⟩,
  ⟨"8xy6", 0x8006#16, 0xF00F#16⟩, ⟨"8xy7", 0x8007#16, 0xF00F#16⟩, ⟨"8xyE", 0x800E#16, 0xF00F#16⟩,
  ⟨"9xy0", 0x9000#16, 0xF00F#16⟩, ⟨"Annn", 0xA000#16, 0xF000#16⟩, ⟨"Bnnn", 0xB000#16, 0xF000#16⟩,
  ⟨"Cxkk", 0xC000#16, 0xF000#16⟩, ⟨"Dxyn", 0xD000#16, 0xF000#16⟩, ⟨"Ex9E", 0xE09E#16, 0xF0FF#16⟩,
  ⟨"ExA1", 0xE0A1#16, 0xF0FF#16⟩, ⟨"Fx07", 0xF007#16, 0xF0FF#16⟩, ⟨"Fx0A", 0xF00A#16, 0xF0FF#16⟩,
  ⟨"Fx15", 0xF015#16, 0xF0FF#16⟩, ⟨"Fx18", 0xF018#16, 0xF0FF#16⟩, ⟨"Fx1E", 0xF01E#16, 0xF0FF#16⟩,
  ⟨"Fx29", 0xF029#16, 0xF0FF#16⟩, ⟨"Fx33", 0xF033#16, 0xF0FF#16⟩, ⟨"Fx55", 0xF055#16, 0xF0FF#16⟩,
  ⟨"Fx65", 0xF065#16, 0xF0FF#16⟩]

/-- Which row of the table an instruction is. -/
def Instr.rowIndex : Instr → Fin 34
  | .cls => 0 | .ret => 1 | .jp _ => 2 | .call _ => 3 | .seImm _ _ => 4 | .sneImm _ _ => 5 | .seReg _ _ => 6
  | .ldImm _ _ => 7 | .addImm _ _ => 8 | .ldReg _ _ => 9 | .orReg _ _ => 10 | .andReg _ _ => 11 | .xorReg _ _ => 12
  | .addReg _ _ => 13 | .subReg _ _ => 14 | .shrReg _ _ => 15 | .subnReg _ _ => 16 | .shlReg _ _ => 17
  | .sneReg _ _ => 18 | .ldI _ => 19 | .jpV0 _ => 20 | .rnd _ _ => 21 | .drw _ _ _ => 22 | .skp _ => 23 | .sknp _ => 24
  | .ldVxDT _ => 25 | .ldVxK _ => 26 | .ldDTVx _ => 27 | .ldSTVx _ => 28 | .addI _ => 29 | .ldF _ => 30 | .ldB _ => 31
  | .storeRegs _ => 32 | .loadRegs _ => 33

/-- The table row of an instruction. -/
def Instr.row (i : Instr) : OpcodeRow := opcodeTable[i.rowIndex]

/-! ### The host's numbering of an instruction's bits -/

/-- The instruction word whose bits are `w`, of which the table gives `nbits`: the bits above are 0. Every instruction is
one 16-bit word, so the word's number is its value. -/
def tableWord (nbits w : Nat) : Word := BitVec.ofNat 16 (w % 2 ^ nbits)

/-- The instruction the decoder reads from the bytes of `tableWord`, laid out high byte first (R52). -/
def decodeTableWord (nbits w : Nat) : Option Instr :=
  match decode [highByte (tableWord nbits w), lowByte (tableWord nbits w)] with
  | .ok (i, _) => some i
  | .error _ => none

end Sys2Proof
end

