-- ==== Sys2Proof/Machine/Fetch.lean ====
section
/-!
DEFINITION. Fetch (R91), the effect of an unknown encoding (R95), and the placing of a word where the next fetch reads it.
-/

namespace Sys2Proof.Machine

/-- `Fetch()`: the two bytes at pc, high byte first; `none` when `pc > 0xFFE` (R91, R52, R63). -/
def State.fetch (s : State) : Option Word :=
  if inMemory s.pc 2 then some (wordOfBytes (s.mem.read s.pc.toNat) (s.mem.read (s.pc.toNat + 1))) else none

/-- A word that matches no row: `pc <- npc` and nothing else (R95, R175, D11). -/
def execUnknown (s : State) : Result := .next s.advance

/-- Store a word where the next Step fetches it. The fetch also needs ES = RUNNING (R90) and a pc whose two bytes are in
memory (R91): where `s` has them, only memory changes; else ES is set, and pc to the entry address. -/
def State.placeWord (s : State) (op : Word) : State :=
  let at_ := if inMemory s.pc 2 then s.pc else Config.entry
  { s with pc := at_, es := .running, mem := s.mem.writeBytes at_.toNat [highByte op, lowByte op] }

end Sys2Proof.Machine
end

