-- ==== Sys2Proof/Machine/Step.lean ====
section
/-!
DEFINITION. The Step event (R90 to R95), and the placing of an instruction for the host.
-/

namespace Sys2Proof.Machine

/-- `Step()`: a no-op unless ES = RUNNING; else fetch, decode and execute exactly one instruction, or enter exactly one fault
(R90). -/
def step (s : State) : Host.Outcome State Fault Refusal :=
  if s.es = .running then
    match s.fetch with
    | none => .next (s.raise .addressRange)
    | some op =>
      match decodeWord op with
      | some i => exec i s
      | none => execUnknown s
  else .next s

/-- The state with the instruction of the host's number placed where the next Step fetches it (log entry 8). -/
def State.withFetchWord (s : State) (nbits w : Nat) : State := s.placeWord (tableWord nbits w)

end Sys2Proof.Machine
end

