-- ==== Sys2Proof/Machine/Events.lean ====
section
/-!
DEFINITION. The events of R177 other than Step: Reset with its parameters, Load and the launch of a run; Tick, KeyDown, KeyUp and
Quit; the delivery of any event of a run; and the outputs of the block (R38).
-/

namespace Sys2Proof.Machine

/-! ### Start-up: Reset, then Load, once each (R200 to R206) -/

/-- The Reset event with the arguments the spec leaves open (R6): `FONT_TABLE` (D5), `MEM_INIT` outside the font table (D6), and
`KEYS_INIT` (D27). `State.reset` is this reset with all three at their defaults. -/
def State.resetWith (font : Fin fontLen → Byte) (memInit : Nat → Byte) (keysInit : Vector Bool 16) : State :=
  { State.reset with mem := Memory.ofReset font memInit, keys := keysInit }

/-- The Load event: the image from 0x200 up, or ProgramTooLarge with no byte written (R205, R206). -/
def load (image : List Byte) (s : State) : Result :=
  if imageFits image then .next (s.storeBytes Config.entry.toNat image) else .fault .programTooLarge

/-- Boot from the state a Reset left (R204): the Load. `none` is an image the host could not read: no Load event, no run (R176,
R206). -/
def launchFrom (afterReset : State) (image : Option (List Byte)) : Result :=
  match image with
  | some bytes => load bytes afterReset
  | none => .fault .sourceUnavailable

/-- Boot (R204): Reset with the default arguments, then Load. -/
def launch (image : Option (List Byte)) : Result := launchFrom State.reset image

/-! ### Events of a run (R177, R180 to R183) -/

/-- A timer's countdown: minus 1, floor at 0 (R180). -/
def countDown (b : Byte) : Byte := if b = 0 then 0 else b - 1

/-- Tick (R180). -/
def tick (s : State) : State :=
  if s.es = .stopped then s else (s.setDT (countDown s.dt)).setST (countDown s.st)

/-- KeyDown(k) (R181). -/
def keyDown (k : Key) (s : State) : State := if s.es = .stopped then s else s.setKey k true

/-- The end of a key wait: the key's number into `V[WAITREG]`, ES to RUNNING (R182). -/
def State.endWait (s : State) (k : Key) : State := (s.setReg s.waitReg (k.zeroExtend 8)).setES .running

/-- KeyUp(k): the key-release transition, and the end of a key wait (R182). -/
def keyUp (k : Key) (s : State) : State :=
  if s.es = .stopped then s
  else if s.key k = false then s
  else if s.es = .awaitingKey then (s.setKey k false).endWait k
  else s.setKey k false

/-- Quit (R183). -/
def quit (s : State) : State := s.setES .stopped

/-- The events the environment may deliver in a run, in any order (R177, R195). Reset and Load are not among them: a run has
no such move (R202, R204, D17). -/
inductive Event where
  | step
  | tick
  | keyDown (k : Key)
  | keyUp (k : Key)
  | quit
  deriving DecidableEq, Repr

/-- One event, atomic (R177). -/
def deliver (e : Event) (s : State) : Result :=
  match e with
  | .step => step s
  | .tick => .next (tick s)
  | .keyDown k => .next (keyDown k s)
  | .keyUp k => .next (keyUp k s)
  | .quit => .next (quit s)

/-- A sequence of events, in the order delivered (R177, R195). -/
def deliverAll : List Event → State → Result
  | [], s => .next s
  | e :: es, s =>
    match deliver e s with
    | .next t => deliverAll es t
    | .fault r => .fault r
    | .refused r => .refused r

/-! ### Outputs (R38) -/

/-- `display_out`: the buffer as the sink sees it, row-major, element `64*r + c` (R35, R38). -/
def displayOut (s : State) : List Bool := s.disp.toList.flatMap (fun row => row.toList)

/-- `sound_active = (ST > 0)` (R38). -/
def soundActive (s : State) : Bool := decide (0 < s.st.toNat)

/-- `exec_state = ES` (R38). -/
def execState (s : State) : ExecState := s.es

/-- `error_cause = ERR` (R38). -/
def errorCause (s : State) : ErrorCause := s.err

/-- The 2-bit code of an Execution State (R31, D13). -/
def ExecState.code : ExecState → BitVec 2
  | .running => 0
  | .awaitingKey => 1
  | .haltedError => 2
  | .stopped => 3

/-- The 3-bit code of an error cause (R33, R170, D13). -/
def ErrorCause.code : ErrorCause → BitVec 3
  | .none => 0
  | .stackOverflow => 1
  | .stackUnderflow => 2
  | .addressRange => 3
  | .keyIndexRange => 4

/-- The run has ended: ES is HALTED_ERROR or STOPPED (R214). -/
def hasEnded (s : State) : Bool := decide (s.es = .haltedError ∨ s.es = .stopped)

/-- The program has settled: ES = RUNNING and the instruction at pc is a 1nnn whose nnn equals pc (R214). -/
def hasSettled (s : State) : Bool :=
  match s.fetch with
  | some op =>
    match decodeWord op with
    | some (.jp nnn) => decide (s.es = .running ∧ addrOf nnn = s.pc)
    | _ => false
  | none => false

end Sys2Proof.Machine
end

