-- ==== Sys2Proof/Safety.lean ====
section
/-!
DEFINITION. The terms in which the statements speak: frames (what a step leaves unchanged), the invariant of every reachable state,
and what an event may do to ES.
-/

namespace Sys2Proof.Machine

/-- Every general register outside the list is unchanged. -/
def RegsKeptExcept (dest : List Reg) (s t : State) : Prop := ∀ r, r ∉ dest → t.reg r = s.reg r

/-- Every byte of memory reads as before. -/
def MemKept (s t : State) : Prop := ∀ a, t.mem.read a = s.mem.read a

/-- Every byte of memory outside the `n` bytes from `a` reads as before. -/
def MemKeptOutside (a n : Nat) (s t : State) : Prop := ∀ b, ¬(a ≤ b ∧ b < a + n) → t.mem.read b = s.mem.read b

/-- Everything but the general registers, I, pc and memory is unchanged: stack, timers, display, keypad, ES, ERR, WAITREG and
the count of draws. -/
def RestKept (s t : State) : Prop := { t with v := s.v, i := s.i, pc := s.pc, mem := s.mem } = s

/-- The frame of an instruction that changes pc and the registers of the list, and nothing else. -/
def OnlyRegsAndPc (dest : List Reg) (s t : State) : Prop :=
  RegsKeptExcept dest s t ∧ t.i = s.i ∧ MemKept s t ∧ RestKept s t

/-- The frame of an instruction that changes pc and I, and nothing else. -/
def OnlyIAndPc (s t : State) : Prop := RegsKeptExcept [] s t ∧ MemKept s t ∧ RestKept s t

/-- The state fault entry leaves: ES and ERR written, everything else as before (R185). -/
def faultEntered (s : State) (c : ErrorCause) : State := { s with es := .haltedError, err := c }

/-- pc never exceeds 0x10FE, the largest value an instruction can leave (R23). -/
def PcBounded (s : State) : Prop := s.pc.toNat ≤ 0x10FE

/-- Every stack slot holds at most 0x1000: a pushed `npc` follows a fetch at 0xFFE at most. -/
def StackBounded (s : State) : Prop := ∀ j (h : j < 16), (s.stack[j]'h).toNat ≤ 0x1000

/-- ERR names a cause exactly as far as ES says: a cause in HALTED_ERROR, none in RUNNING and AWAITING_KEY (R41). -/
def CauseCoherent (s : State) : Prop :=
  (s.es = .haltedError → s.err ≠ .none) ∧ (s.es = .running ∨ s.es = .awaitingKey → s.err = .none)

/-- The invariant of every reachable state: canonical memory, bounded pc and return addresses, coherent error cause. -/
structure Inv (s : State) : Prop where
  memWf : s.mem.wf = true
  pcBounded : PcBounded s
  stackBounded : StackBounded s
  causeCoherent : CauseCoherent s

/-- The next ES that the table of R194 allows, from a state and an event. -/
def esAllowed (s : State) (e : Event) (next : ExecState) : Prop :=
  match e, s.es with
  | .quit, _ => next = .stopped
  | .step, .running => next = .running ∨ next = .awaitingKey ∨ next = .haltedError
  | .keyUp k, .awaitingKey => next = if s.key k then .running else .awaitingKey
  | _, old => next = old

/-- The registers an instruction names as its destinations, the flag apart (R22). -/
def destRegs : Instr → List Reg
  | .ldImm x _ | .addImm x _ | .ldReg x _ | .orReg x _ | .andReg x _ | .xorReg x _ | .addReg x _ | .subReg x _
  | .shrReg x _ | .subnReg x _ | .shlReg x _ | .rnd x _ | .ldVxDT x => [x]
  | .loadRegs x => (List.range (x.toNat + 1)).map (BitVec.ofNat 4)
  | .cls | .ret | .jp _ | .call _ | .seImm _ _ | .sneImm _ _ | .seReg _ _ | .sneReg _ _ | .ldI _ | .jpV0 _ | .drw _ _ _
  | .skp _ | .sknp _ | .ldVxK _ | .ldDTVx _ | .ldSTVx _ | .addI _ | .ldF _ | .ldB _ | .storeRegs _ => []

/-- The instructions that write V15 as a flag (R25). -/
def writesFlag : Instr → Bool
  | .orReg _ _ | .andReg _ _ | .xorReg _ _ | .addReg _ _ | .subReg _ _ | .shrReg _ _ | .subnReg _ _ | .shlReg _ _
  | .drw _ _ _ => true
  | .cls | .ret | .jp _ | .call _ | .seImm _ _ | .sneImm _ _ | .seReg _ _ | .sneReg _ _ | .ldI _ | .jpV0 _ | .ldImm _ _
  | .addImm _ _ | .ldReg _ _ | .rnd _ _ | .skp _ | .sknp _ | .ldVxDT _ | .ldVxK _ | .ldDTVx _ | .ldSTVx _ | .addI _ | .ldF _
  | .ldB _ | .storeRegs _ | .loadRegs _ => false

/-- The sprite of `Dxyn` covers pixel (r, c) with a 1: some sprite row `q < n` and column offset `j < 8` falls on it from the
wrapped starting coordinates, and bit `7 - j` of the byte at `I + q` is 1 (R151, R152). -/
def SpriteCovers (s : State) (x y : Reg) (n : Rows) (r c : Nat) : Prop :=
  ∃ q j, q < n.toNat ∧ j < 8 ∧ r = (s.reg y).toNat % 32 + q ∧ c = (s.reg x).toNat % 64 + j ∧
    (s.mem.read (s.i.toNat + q)).getLsbD (7 - j) = true

/-- The sprite covers a pixel of the display that is 1 (R151). -/
def SpriteCollides (s : State) (x y : Reg) (n : Rows) : Prop :=
  ∃ r c, r < 32 ∧ c < 64 ∧ SpriteCovers s x y n r c ∧ s.disp.pixel r c = true

/-- The instruction completes and leaves the byte in the register. -/
def RegAfter (i : Instr) (s : State) (r : Reg) (b : Byte) : Prop := ∃ t, exec i s = .next t ∧ t.reg r = b

end Sys2Proof.Machine
end

