-- ==== Sys2Proof/Certificates/Slice0/Obligations.lean ====
section
/-!
DEFINITION. The statements for the provers. Each docstring names the rule it formalises; where a clause rests on a decision the spec
marks as its own (92_eei_decisions.md), the docstring says so.
-/

open Sys2Proof Sys2Proof.Machine

/-! ### Encoding -/

/-- R75: words written out from the patterns decode to their instructions, and words of no pattern to none. -/
def Obligations.KnownWordsDecodeAsTheTableSays : Prop :=
  decodeWord 0x00EE#16 = some .ret ∧ decodeWord 0x1ABC#16 = some (.jp 0xABC) ∧ decodeWord 0x632A#16 = some (.ldImm 3 0x2A) ∧
    decodeWord 0x812E#16 = some (.shlReg 1 2) ∧ decodeWord 0xA2F0#16 = some (.ldI 0x2F0) ∧
    decodeWord 0xD015#16 = some (.drw 0 1 5) ∧ decodeWord 0xE59E#16 = some (.skp 5) ∧
    decodeWord 0xF365#16 = some (.loadRegs 3) ∧ decodeWord 0x0123#16 = none ∧ decodeWord 0x5121#16 = none ∧
    decodeWord 0x8128#16 = none

/-- R75: "The patterns are pairwise disjoint": no word is selected by two rows. -/
def Obligations.OpcodeRowsArePairwiseDisjoint : Prop :=
  ∀ (j k : Fin 34) (op : Word), (opcodeTable[j]).selects op = true → (opcodeTable[k]).selects op = true → j = k

/-- R75, R76, R77: the decoder answers an instruction exactly for the words some row selects, and the instruction it answers
is the one of the row that selects the word. -/
def Obligations.DecoderFollowsTheOpcodeTable : Prop :=
  ∀ op : Word, (∀ i, decodeWord op = some i → i.row.selects op = true) ∧
    (decodeWord op = none ↔ ∀ k : Fin 34, (opcodeTable[k]).selects op = false)

/-- Decoding the two bytes of an encoded instruction gives the instruction back and leaves the bytes after it: every
instruction, every operand value. -/
def Obligations.DecodeOfEncodeIsTheInstruction : Prop :=
  ∀ (i : Instr) (rest : List Byte), decode (encode i ++ rest) = .ok (i, rest)

/-- Each word has one meaning: a word that decodes to an instruction is that instruction's encoding. -/
def Obligations.EncodeOfDecodeIsTheWord : Prop :=
  ∀ (op : Word) (i : Instr), decodeWord op = some i → encodeWord i = op

/-! ### The Step event -/

/-- R90, R91, R93: a Step with ES = RUNNING and both bytes at pc in memory executes the instruction they decode to,
at an odd pc as at an even one (the spec's decision D21). -/
def Obligations.StepRunsTheDecodedInstruction : Prop :=
  ∀ (s : State) (i : Instr), s.es = .running → s.pc.toNat ≤ 0xFFE →
    decodeWord (s.mem.read s.pc.toNat ++ s.mem.read (s.pc.toNat + 1)) = some i → step s = exec i s

/-- R95 (the unknown-encoding policy is the spec's decision D11): a word that matches no row advances pc by 2 and changes
nothing else. -/
def Obligations.UnknownWordOnlyAdvancesPc : Prop :=
  ∀ s : State, s.es = .running → s.pc.toNat ≤ 0xFFE →
    decodeWord (s.mem.read s.pc.toNat ++ s.mem.read (s.pc.toNat + 1)) = none →
    ∃ t, step s = .next t ∧ t.pc.toNat = (s.pc.toNat + 2) % 65536 ∧ OnlyRegsAndPc [] s t

/-- R90: a Step in AWAITING_KEY, HALTED_ERROR or STOPPED changes no state at all. -/
def Obligations.StepIsNoOpUnlessRunning : Prop :=
  ∀ s : State, s.es = .awaitingKey ∨ s.es = .haltedError ∨ s.es = .stopped → step s = .next s

/-- R91 with the spec's decision D1: a fetch at a pc above 0xFFE is the AddressRange fault; pc and all other state keep their
values. -/
def Obligations.FetchOutsideMemoryFaults : Prop :=
  ∀ s : State, s.es = .running → 0xFFE < s.pc.toNat → step s = .next (faultEntered s .addressRange)

/-- R62 (decision D15): bytes stored at pc are what the very next Step executes, whatever was there before. -/
def Obligations.StoredWordIsExecutedByTheNextStep : Prop :=
  ∀ (s : State) (hi lo : Byte) (i : Instr), s.es = .running → s.pc.toNat ≤ 0xFFE → decodeWord (hi ++ lo) = some i →
    step { s with mem := (s.mem.write s.pc.toNat hi).write (s.pc.toNat + 1) lo } =
      exec i { s with mem := (s.mem.write s.pc.toNat hi).write (s.pc.toNat + 1) lo }

/-- R94, R96: every Step answers a next state, from every state: none of the model's faults or refusals is ever the outcome. -/
def Obligations.EveryStepAnswersANextState : Prop := ∀ s : State, ∃ t, step s = .next t

/-! ### Control transfer -/

/-- R102. -/
def Obligations.JumpSetsPc : Prop :=
  ∀ (s : State) (nnn : Addr12), ∃ t, exec (.jp nnn) s = .next t ∧ t.pc.toNat = nnn.toNat ∧ OnlyRegsAndPc [] s t

/-- R104: the sum is not reduced to 12 bits. -/
def Obligations.JumpWithOffsetAddsV0 : Prop :=
  ∀ (s : State) (nnn : Addr12), ∃ t, exec (.jpV0 nnn) s = .next t ∧
    t.pc.toNat = (nnn.toNat + (s.reg 0).toNat) % 65536 ∧ OnlyRegsAndPc [] s t

/-- R103, R171: with room on the stack the call pushes `npc` and jumps; on a full stack it is the StackOverflow fault and
nothing of the call is performed. Which slot is written rests on the spec's decision D12, and that pc stays on the faulting call
on its resolution C1. -/
def Obligations.CallPushesTheReturnAddressOrOverflows : Prop :=
  ∀ (s : State) (nnn : Addr12),
    (∀ h : s.sp.val < 16, ∃ t, exec (.call nnn) s = .next t ∧ t.pc.toNat = nnn.toNat ∧ t.sp.val = s.sp.val + 1 ∧
      (t.stack[s.sp.val]'h).toNat = (s.pc.toNat + 2) % 65536 ∧
      (∀ j (hj : j < 16), j ≠ s.sp.val → t.stack[j]'hj = s.stack[j]'hj) ∧
      RegsKeptExcept [] s t ∧ MemKept s t ∧ { t with pc := s.pc, sp := s.sp, stack := s.stack } = s) ∧
    (s.sp.val = 16 → exec (.call nnn) s = .next (faultEntered s .stackOverflow))

/-- R101, R172: with a live entry the return takes the most recent one, and the popped slot keeps its value (the spec's decision
D12); on an empty stack it is the StackUnderflow fault and nothing of the return is performed. -/
def Obligations.ReturnPopsTheStackOrUnderflows : Prop :=
  ∀ s : State,
    (∀ h : 0 < s.sp.val, ∃ t, exec .ret s = .next t ∧ t.pc = s.stack[s.sp.val - 1]'(by omega) ∧
      t.sp.val = s.sp.val - 1 ∧ RegsKeptExcept [] s t ∧ MemKept s t ∧ { t with pc := s.pc, sp := s.sp } = s) ∧
    (s.sp.val = 0 → exec .ret s = .next (faultEntered s .stackUnderflow))

/-- R101 and R103 together: a call followed at its target by a return resumes after the call, at the old depth, with registers
and memory as they were. The clause that the slots below the old SP are unchanged is about the slots themselves and rests on the
slot layout of R27, the spec's decision D12 (log entry 4). -/
def Obligations.ReturnAfterCallResumesAfterTheCall : Prop :=
  ∀ (s : State) (nnn : Addr12), s.sp.val < 16 →
    ∃ t u, exec (.call nnn) s = .next t ∧ exec .ret t = .next u ∧ u.pc.toNat = (s.pc.toNat + 2) % 65536 ∧ u.sp = s.sp ∧
      (∀ j (hj : j < 16), j < s.sp.val → u.stack[j]'hj = s.stack[j]'hj) ∧ RegsKeptExcept [] s u ∧ MemKept s u ∧ u.i = s.i

/-- R105, R106. -/
def Obligations.SkipsComparingWithAnImmediate : Prop :=
  ∀ (s : State) (x : Reg) (kk : Byte),
    (∃ t, exec (.seImm x kk) s = .next t ∧
      t.pc.toNat = (s.pc.toNat + (if s.reg x = kk then 4 else 2)) % 65536 ∧ OnlyRegsAndPc [] s t) ∧
    (∃ t, exec (.sneImm x kk) s = .next t ∧
      t.pc.toNat = (s.pc.toNat + (if s.reg x = kk then 2 else 4)) % 65536 ∧ OnlyRegsAndPc [] s t)

/-- R107, R108. -/
def Obligations.SkipsComparingTwoRegisters : Prop :=
  ∀ (s : State) (x y : Reg),
    (∃ t, exec (.seReg x y) s = .next t ∧
      t.pc.toNat = (s.pc.toNat + (if s.reg x = s.reg y then 4 else 2)) % 65536 ∧ OnlyRegsAndPc [] s t) ∧
    (∃ t, exec (.sneReg x y) s = .next t ∧
      t.pc.toNat = (s.pc.toNat + (if s.reg x = s.reg y then 2 else 4)) % 65536 ∧ OnlyRegsAndPc [] s t)

/-! ### Register file and ALU -/

/-- R121, R123: V15 changes only as the destination. -/
def Obligations.LoadImmediateAndCopyWriteOnlyVx : Prop :=
  ∀ (s : State) (x y : Reg) (kk : Byte),
    (∃ t, exec (.ldImm x kk) s = .next t ∧ t.reg x = kk ∧ t.pc = s.pc + 2 ∧ OnlyRegsAndPc [x] s t) ∧
    (∃ t, exec (.ldReg x y) s = .next t ∧ t.reg x = s.reg y ∧ t.pc = s.pc + 2 ∧ OnlyRegsAndPc [x] s t)

/-- R122: no flag; with `x = 15` the sum itself goes to V15. -/
def Obligations.AddImmediateWrapsAndSetsNoFlag : Prop :=
  ∀ (s : State) (x : Reg) (kk : Byte), ∃ t, exec (.addImm x kk) s = .next t ∧
    (t.reg x).toNat = ((s.reg x).toNat + kk.toNat) % 256 ∧ t.pc = s.pc + 2 ∧ OnlyRegsAndPc [x] s t

/-- R124, R125, R126: each bit of the result is the bits' or, and, exclusive or; V15 ends 0, also when it is the
destination. -/
def Obligations.LogicInstructionsClearTheFlag : Prop :=
  ∀ (s : State) (x y : Reg),
    (∃ t, exec (.orReg x y) s = .next t ∧ t.reg flagReg = 0 ∧
      (x ≠ flagReg → ∀ b, b < 8 → (t.reg x).getLsbD b = ((s.reg x).getLsbD b || (s.reg y).getLsbD b)) ∧
      t.pc = s.pc + 2 ∧ OnlyRegsAndPc [x, flagReg] s t) ∧
    (∃ t, exec (.andReg x y) s = .next t ∧ t.reg flagReg = 0 ∧
      (x ≠ flagReg → ∀ b, b < 8 → (t.reg x).getLsbD b = ((s.reg x).getLsbD b && (s.reg y).getLsbD b)) ∧
      t.pc = s.pc + 2 ∧ OnlyRegsAndPc [x, flagReg] s t) ∧
    (∃ t, exec (.xorReg x y) s = .next t ∧ t.reg flagReg = 0 ∧
      (x ≠ flagReg → ∀ b, b < 8 → (t.reg x).getLsbD b = ((s.reg x).getLsbD b ^^ (s.reg y).getLsbD b)) ∧
      t.pc = s.pc + 2 ∧ OnlyRegsAndPc [x, flagReg] s t)

/-- R127: the flag is the carry out of the exact sum; with `x = 15` the sum is discarded and V15 is the carry. -/
def Obligations.AddReportsTheCarry : Prop :=
  ∀ (s : State) (x y : Reg), ∃ t, exec (.addReg x y) s = .next t ∧
    (t.reg flagReg).toNat = (if 255 < (s.reg x).toNat + (s.reg y).toNat then 1 else 0) ∧
    (x ≠ flagReg → (t.reg x).toNat = ((s.reg x).toNat + (s.reg y).toNat) % 256) ∧
    t.pc = s.pc + 2 ∧ OnlyRegsAndPc [x, flagReg] s t

/-- R128, R130: the result is the exact difference modulo 256 and the flag is 1 when there is no borrow; with `x = 15` the
difference overwrites the flag. That V15 as an operand is read before the flag is written is the spec's decision D8. -/
def Obligations.SubtractionsReportNoBorrow : Prop :=
  ∀ (s : State) (x y : Reg),
    (∃ t, exec (.subReg x y) s = .next t ∧
      ((t.reg x).toNat : Int) = (((s.reg x).toNat : Int) - ((s.reg y).toNat : Int)) % 256 ∧
      (x ≠ flagReg → (t.reg flagReg).toNat = (if (s.reg y).toNat ≤ (s.reg x).toNat then 1 else 0)) ∧
      t.pc = s.pc + 2 ∧ OnlyRegsAndPc [x, flagReg] s t) ∧
    (∃ t, exec (.subnReg x y) s = .next t ∧
      ((t.reg x).toNat : Int) = (((s.reg y).toNat : Int) - ((s.reg x).toNat : Int)) % 256 ∧
      (x ≠ flagReg → (t.reg flagReg).toNat = (if (s.reg x).toNat ≤ (s.reg y).toNat then 1 else 0)) ∧
      t.pc = s.pc + 2 ∧ OnlyRegsAndPc [x, flagReg] s t)

/-- R129, R131: the source is Vy, the old Vx is not used, the flag is the bit shifted out; with `x = 15` the shifted value
overwrites the flag. That V15 as the source is read before the flag is written is the spec's decision D8. -/
def Obligations.ShiftsTakeTheirSourceFromVy : Prop :=
  ∀ (s : State) (x y : Reg),
    (∃ t, exec (.shrReg x y) s = .next t ∧ (t.reg x).toNat = (s.reg y).toNat / 2 ∧
      (x ≠ flagReg → (t.reg flagReg).toNat = (s.reg y).toNat % 2) ∧ t.pc = s.pc + 2 ∧ OnlyRegsAndPc [x, flagReg] s t) ∧
    (∃ t, exec (.shlReg x y) s = .next t ∧ (t.reg x).toNat = 2 * (s.reg y).toNat % 256 ∧
      (x ≠ flagReg → (t.reg flagReg).toNat = (s.reg y).toNat / 128) ∧ t.pc = s.pc + 2 ∧ OnlyRegsAndPc [x, flagReg] s t)

/-- R132: the result is some byte masked with kk, so every bit that is 0 in kk is 0; nothing else but pc and the model's own
count of draws (log entry 1) changes. -/
def Obligations.RandomByteIsMaskedWithTheImmediate : Prop :=
  ∀ (s : State) (x : Reg) (kk : Byte), ∃ (t : State) (r : Byte), exec (.rnd x kk) s = .next t ∧ t.reg x = r &&& kk ∧
    (∀ b, kk.getLsbD b = false → (t.reg x).getLsbD b = false) ∧ t.pc = s.pc + 2 ∧ RegsKeptExcept [x] s t ∧ t.i = s.i ∧
    MemKept s t ∧ { t with v := s.v, pc := s.pc, draws := s.draws } = s

/-- R134, the table of outcomes when V15 is an operand (it rests on the spec's decision D8: operands sampled first). `f` is
the old V15, `a` the old Vx, `b` the old Vy. -/
def Obligations.OutcomesWhenTheFlagRegisterIsAnOperand : Prop :=
  ∀ (s : State) (x y : Reg) (f a b : Byte), x ≠ flagReg → y ≠ flagReg → s.reg flagReg = f → s.reg x = a → s.reg y = b →
    (RegAfter (.ldReg flagReg y) s flagReg b ∧ RegAfter (.ldReg x flagReg) s x f ∧ RegAfter (.ldReg x flagReg) s flagReg f ∧
      RegAfter (.ldReg flagReg flagReg) s flagReg f) ∧
    (RegAfter (.orReg flagReg y) s flagReg 0 ∧ RegAfter (.orReg x flagReg) s x (a ||| f) ∧
      RegAfter (.orReg x flagReg) s flagReg 0 ∧ RegAfter (.orReg flagReg flagReg) s flagReg 0) ∧
    (RegAfter (.andReg flagReg y) s flagReg 0 ∧ RegAfter (.andReg x flagReg) s x (a &&& f) ∧
      RegAfter (.andReg x flagReg) s flagReg 0 ∧ RegAfter (.andReg flagReg flagReg) s flagReg 0) ∧
    (RegAfter (.xorReg flagReg y) s flagReg 0 ∧ RegAfter (.xorReg x flagReg) s x (a ^^^ f) ∧
      RegAfter (.xorReg x flagReg) s flagReg 0 ∧ RegAfter (.xorReg flagReg flagReg) s flagReg 0) ∧
    (RegAfter (.addReg flagReg y) s flagReg (if 255 < f.toNat + b.toNat then 1 else 0) ∧
      RegAfter (.addReg x flagReg) s x (a + f) ∧
      RegAfter (.addReg x flagReg) s flagReg (if 255 < a.toNat + f.toNat then 1 else 0) ∧
      RegAfter (.addReg flagReg flagReg) s flagReg (if 255 < 2 * f.toNat then 1 else 0)) ∧
    (RegAfter (.subReg flagReg y) s flagReg (f - b) ∧ RegAfter (.subReg x flagReg) s x (a - f) ∧
      RegAfter (.subReg x flagReg) s flagReg (if f.toNat ≤ a.toNat then 1 else 0) ∧
      RegAfter (.subReg flagReg flagReg) s flagReg 0) ∧
    (RegAfter (.shrReg flagReg y) s flagReg (b >>> 1) ∧ RegAfter (.shrReg x flagReg) s x (f >>> 1) ∧
      RegAfter (.shrReg x flagReg) s flagReg (f &&& 1) ∧ RegAfter (.shrReg flagReg flagReg) s flagReg (f >>> 1)) ∧
    (RegAfter (.subnReg flagReg y) s flagReg (b - f) ∧ RegAfter (.subnReg x flagReg) s x (f - a) ∧
      RegAfter (.subnReg x flagReg) s flagReg (if a.toNat ≤ f.toNat then 1 else 0) ∧
      RegAfter (.subnReg flagReg flagReg) s flagReg 0) ∧
    (RegAfter (.shlReg flagReg y) s flagReg (b <<< 1) ∧ RegAfter (.shlReg x flagReg) s x (f <<< 1) ∧
      RegAfter (.shlReg x flagReg) s flagReg ((f >>> 7) &&& 1) ∧ RegAfter (.shlReg flagReg flagReg) s flagReg (f <<< 1))

/-! ### The address register, loads and stores -/

/-- R140, R141: V15 is not written, and the sum wraps at 16 bits. -/
def Obligations.AddressRegisterIsLoadedAndAdded : Prop :=
  ∀ (s : State) (x : Reg) (nnn : Addr12),
    (∃ t, exec (.ldI nnn) s = .next t ∧ t.i.toNat = nnn.toNat ∧ t.pc = s.pc + 2 ∧ OnlyIAndPc s t) ∧
    (∃ t, exec (.addI x) s = .next t ∧ t.i.toNat = (s.i.toNat + (s.reg x).toNat) % 65536 ∧ t.pc = s.pc + 2 ∧ OnlyIAndPc s t)

/-- R142, with the spec's decisions D3 (the formula on all 8 bits of Vx) and D4 (the base 0x050). -/
def Obligations.GlyphAddressIsFiveBytesPerDigit : Prop :=
  ∀ (s : State) (x : Reg), ∃ t, exec (.ldF x) s = .next t ∧ t.i.toNat = 0x050 + 5 * (s.reg x).toNat ∧
    t.pc = s.pc + 2 ∧ OnlyIAndPc s t

/-- R143: hundreds, tens, ones at I, I+1, I+2, and nothing else; out of range (the spec's decision D1) it is the AddressRange
fault and nothing is stored. -/
def Obligations.DecimalDigitsAreStored : Prop :=
  ∀ (s : State) (x : Reg),
    (s.i.toNat + 2 ≤ 0xFFF → ∃ t, exec (.ldB x) s = .next t ∧
      (t.mem.read s.i.toNat).toNat = (s.reg x).toNat / 100 ∧
      (t.mem.read (s.i.toNat + 1)).toNat = (s.reg x).toNat / 10 % 10 ∧
      (t.mem.read (s.i.toNat + 2)).toNat = (s.reg x).toNat % 10 ∧
      MemKeptOutside s.i.toNat 3 s t ∧ RegsKeptExcept [] s t ∧ t.i = s.i ∧ t.pc = s.pc + 2 ∧ RestKept s t) ∧
    (0xFFF < s.i.toNat + 2 → exec (.ldB x) s = .next (faultEntered s .addressRange))

/-- R144: V0 to Vx go to memory from I up and I is advanced by x + 1; out of range (the spec's decision D1) it is the
AddressRange fault and nothing is stored. -/
def Obligations.RegistersAreStoredFromI : Prop :=
  ∀ (s : State) (x : Reg),
    (s.i.toNat + x.toNat ≤ 0xFFF → ∃ t, exec (.storeRegs x) s = .next t ∧
      (∀ r : Reg, r.toNat ≤ x.toNat → t.mem.read (s.i.toNat + r.toNat) = s.reg r) ∧
      t.i.toNat = s.i.toNat + x.toNat + 1 ∧
      MemKeptOutside s.i.toNat (x.toNat + 1) s t ∧ RegsKeptExcept [] s t ∧ t.pc = s.pc + 2 ∧ RestKept s t) ∧
    (0xFFF < s.i.toNat + x.toNat → exec (.storeRegs x) s = .next (faultEntered s .addressRange))

/-- R145: V0 to Vx are loaded from I up, registers above Vx are kept, I is advanced by x + 1, memory is unchanged; out of range
(the spec's decision D1) it is the AddressRange fault and no register is loaded. -/
def Obligations.RegistersAreLoadedFromI : Prop :=
  ∀ (s : State) (x : Reg),
    (s.i.toNat + x.toNat ≤ 0xFFF → ∃ t, exec (.loadRegs x) s = .next t ∧
      (∀ r : Reg, r.toNat ≤ x.toNat → t.reg r = s.mem.read (s.i.toNat + r.toNat)) ∧
      (∀ r : Reg, x.toNat < r.toNat → t.reg r = s.reg r) ∧
      t.i.toNat = s.i.toNat + x.toNat + 1 ∧ MemKept s t ∧ t.pc = s.pc + 2 ∧ RestKept s t) ∧
    (0xFFF < s.i.toNat + x.toNat → exec (.loadRegs x) s = .next (faultEntered s .addressRange))

/-- R145 ("Inverse of Fx55"): storing V0 to Vx and then, with I put back and the registers holding anything, loading them gives
every one of them its stored value again. -/
def Obligations.LoadingStoredRegistersRestoresThem : Prop :=
  ∀ (s : State) (x : Reg) (w : Vector Byte 16), s.i.toNat + x.toNat ≤ 0xFFF →
    ∃ t u, exec (.storeRegs x) s = .next t ∧ exec (.loadRegs x) { t with v := w, i := s.i } = .next u ∧
      (∀ r : Reg, r.toNat ≤ x.toNat → u.reg r = s.reg r) ∧ u.i = t.i ∧ ∀ a, u.mem.read a = t.mem.read a

/-! ### Display -/

/-- R150: V15 is not written. -/
def Obligations.ClearDisplayClearsEveryPixel : Prop :=
  ∀ s : State, ∃ t, exec .cls s = .next t ∧ (∀ r c, r < 32 → c < 64 → t.disp.pixel r c = false) ∧ t.pc = s.pc + 2 ∧
    RegsKeptExcept [] s t ∧ t.i = s.i ∧ MemKept s t ∧ { t with disp := s.disp, pc := s.pc } = s

/-- R151, R152: exactly the pixels the clipped sprite covers are flipped, and V15 is 1 if one of them was 1, else 0, with the
coordinates sampled before V15 is written (the spec's decision D8); a range past 0xFFF (decisions D1 and D14: all n bytes
count) is the AddressRange fault, with display and V15 unchanged. -/
def Obligations.DrawXorsTheClippedSpriteAndReportsCollision : Prop :=
  ∀ (s : State) (x y : Reg) (n : Rows),
    (n.toNat = 0 ∨ s.i.toNat + n.toNat - 1 ≤ 0xFFF → ∃ t, exec (.drw x y n) s = .next t ∧
      (∀ r c, r < 32 → c < 64 →
        (SpriteCovers s x y n r c → t.disp.pixel r c = !s.disp.pixel r c) ∧
        (¬SpriteCovers s x y n r c → t.disp.pixel r c = s.disp.pixel r c)) ∧
      (SpriteCollides s x y n → t.reg flagReg = 1) ∧ (¬SpriteCollides s x y n → t.reg flagReg = 0) ∧
      RegsKeptExcept [flagReg] s t ∧ t.i = s.i ∧ MemKept s t ∧ t.pc = s.pc + 2 ∧
      { t with v := s.v, disp := s.disp, pc := s.pc } = s) ∧
    (0 < n.toNat → 0xFFF < s.i.toNat + n.toNat - 1 → exec (.drw x y n) s = .next (faultEntered s .addressRange))

/-- R151, the source's property: drawing the same sprite twice at the same coordinates restores the display, and V15 is 1 on
the second draw if any pixel was set by the first (neither x nor y is 15, so the coordinates are the same). -/
def Obligations.DrawingTwiceRestoresTheDisplay : Prop :=
  ∀ (s : State) (x y : Reg) (n : Rows), x ≠ flagReg → y ≠ flagReg → (n.toNat = 0 ∨ s.i.toNat + n.toNat - 1 ≤ 0xFFF) →
    ∃ t u, exec (.drw x y n) s = .next t ∧ exec (.drw x y n) t = .next u ∧ u.disp = s.disp ∧
      ((∃ r c, r < 32 ∧ c < 64 ∧ s.disp.pixel r c = false ∧ t.disp.pixel r c = true) → u.reg flagReg = 1)

/-- R35, R38 (the output interface is the spec's decision D23): the display output has 2048 elements, and pixel (r, c) is element `64*r + c`. -/
def Obligations.DisplayOutputIsRowMajor : Prop :=
  ∀ s : State, (displayOut s).length = 2048 ∧
    ∀ r c, r < 32 → c < 64 → (displayOut s)[64 * r + c]? = some (s.disp.pixel r c)

/-! ### Keypad and timers -/

/-- R160, R161: the level of the key that Vx names decides the skip; a value above 15 names no key and is the KeyIndexRange
fault (the spec's decision D2). -/
def Obligations.KeySkipsTestTheNamedKey : Prop :=
  ∀ (s : State) (x : Reg),
    (∀ k : Key, (s.reg x).toNat = k.toNat →
      (∃ t, exec (.skp x) s = .next t ∧
        t.pc.toNat = (s.pc.toNat + (if s.key k = true then 4 else 2)) % 65536 ∧ OnlyRegsAndPc [] s t) ∧
      (∃ t, exec (.sknp x) s = .next t ∧
        t.pc.toNat = (s.pc.toNat + (if s.key k = true then 2 else 4)) % 65536 ∧ OnlyRegsAndPc [] s t)) ∧
    (15 < (s.reg x).toNat → exec (.skp x) s = .next (faultEntered s .keyIndexRange) ∧
      exec (.sknp x) s = .next (faultEntered s .keyIndexRange))

/-- R163, R164, R165: the timers are read and written as plain 8-bit values, and the sound output follows ST at once. -/
def Obligations.TimersAreReadAndWritten : Prop :=
  ∀ (s : State) (x : Reg),
    (∃ t, exec (.ldVxDT x) s = .next t ∧ t.reg x = s.dt ∧ t.pc = s.pc + 2 ∧ OnlyRegsAndPc [x] s t) ∧
    (∃ t, exec (.ldDTVx x) s = .next t ∧ t.dt = s.reg x ∧ t.pc = s.pc + 2 ∧ RegsKeptExcept [] s t ∧ MemKept s t ∧
      { t with dt := s.dt, pc := s.pc } = s) ∧
    (∃ t, exec (.ldSTVx x) s = .next t ∧ t.st = s.reg x ∧ (soundActive t = true ↔ 0 < (s.reg x).toNat) ∧
      t.pc = s.pc + 2 ∧ RegsKeptExcept [] s t ∧ MemKept s t ∧ { t with st := s.st, pc := s.pc } = s)

/-- R162: the Step that executes Fx0A remembers x, enters AWAITING_KEY and advances pc; it writes no general register, and
every Step after it is a no-op until the wait ends. -/
def Obligations.KeyWaitBeginsAndSuspendsSteps : Prop :=
  ∀ (s : State) (x : Reg), ∃ t, exec (.ldVxK x) s = .next t ∧ t.waitReg = x ∧ t.es = .awaitingKey ∧ t.pc = s.pc + 2 ∧
    RegsKeptExcept [] s t ∧ MemKept s t ∧ { t with waitReg := s.waitReg, es := s.es, pc := s.pc } = s ∧ step t = .next t

/-! ### Fault entry and rules about all instructions -/

/-- R185 (with decision D7 for the two faults that are the spec's own): a Step that reaches HALTED_ERROR from RUNNING wrote ES
and ERR and nothing else. -/
def Obligations.FaultEntryCommitsNothingElse : Prop :=
  ∀ s t : State, s.es = .running → step s = .next t → t.es = .haltedError →
    ∃ c, c ≠ ErrorCause.none ∧ t = faultEntered s c

/-- R96, R170: which instruction can raise which fault. -/
def Obligations.EachFaultHasItsInstructions : Prop :=
  ∀ (i : Instr) (s t : State), s.es = .running → exec i s = .next t → t.es = .haltedError →
    (t.err = .stackOverflow ∧ s.sp.val = 16 ∧ ∃ nnn, i = .call nnn) ∨
    (t.err = .stackUnderflow ∧ s.sp.val = 0 ∧ i = .ret) ∨
    (t.err = .addressRange ∧ ((∃ x y n, i = .drw x y n) ∨ (∃ x, i = .ldB x) ∨ (∃ x, i = .storeRegs x) ∨ ∃ x, i = .loadRegs x)) ∨
    (t.err = .keyIndexRange ∧ ((∃ x, i = .skp x) ∨ ∃ x, i = .sknp x))

/-- R27, R28: only 2nnn and 00EE touch the call stack. -/
def Obligations.OnlyCallAndReturnTouchTheStack : Prop :=
  ∀ (i : Instr) (s t : State), exec i s = .next t → (∀ nnn, i ≠ .call nnn) → i ≠ .ret → t.stack = s.stack ∧ t.sp = s.sp

/-- R35, R152: only 00E0 and Dxyn change the display. -/
def Obligations.OnlyClearAndDrawChangeTheDisplay : Prop :=
  ∀ (i : Instr) (s t : State), exec i s = .next t → i ≠ .cls → (∀ x y n, i ≠ .drw x y n) → t.disp = s.disp

/-- R29, R30, R36, R97: no instruction changes the keypad, and none changes a timer but the write of that timer. -/
def Obligations.InstructionsLeaveKeypadAndTimers : Prop :=
  ∀ (i : Instr) (s t : State), exec i s = .next t →
    t.keys = s.keys ∧ ((∀ x, i ≠ .ldDTVx x) → t.dt = s.dt) ∧ ((∀ x, i ≠ .ldSTVx x) → t.st = s.st)

/-- R22, R25: an instruction writes no register but its destinations, and V15 when it is one of the nine that write the
flag. -/
def Obligations.OnlyNamedRegistersAreWritten : Prop :=
  ∀ (i : Instr) (s t : State), exec i s = .next t →
    RegsKeptExcept (destRegs i ++ if writesFlag i then [flagReg] else []) s t

/-- R26, R54: only Fx33 and Fx55 write memory, and only Annn, Fx1E, Fx29, Fx55, Fx65 write I. -/
def Obligations.OnlyNamedInstructionsWriteMemoryAndI : Prop :=
  ∀ (i : Instr) (s t : State), exec i s = .next t →
    ((∀ x, i ≠ .ldB x) → (∀ x, i ≠ .storeRegs x) → t.mem = s.mem) ∧
    ((∀ nnn, i ≠ .ldI nnn) → (∀ x, i ≠ .addI x) → (∀ x, i ≠ .ldF x) → (∀ x, i ≠ .storeRegs x) → (∀ x, i ≠ .loadRegs x) →
      t.i = s.i)

/-! ### Events -/

/-- R180: each timer minus 1, floor at 0, and nothing else; in HALTED_ERROR and AWAITING_KEY too (the spec's decision D9) and
not in STOPPED (D25). -/
def Obligations.TickCountsBothTimersDown : Prop :=
  ∀ s : State,
    (s.es ≠ .stopped → (tick s).dt.toNat = s.dt.toNat - 1 ∧ (tick s).st.toNat = s.st.toNat - 1 ∧
      { tick s with dt := s.dt, st := s.st } = s) ∧
    (s.es = .stopped → tick s = s)

/-- R181 (the spec's decision D10): a press sets the level and nothing else; it ends no wait. -/
def Obligations.KeyDownOnlySetsTheLevel : Prop :=
  ∀ (s : State) (k : Key),
    (s.es ≠ .stopped → (keyDown k s).key k = true ∧ (∀ q, q ≠ k → (keyDown k s).key q = s.key q) ∧
      { keyDown k s with keys := s.keys } = s) ∧
    (s.es = .stopped → keyDown k s = s)

/-- R182 (the spec's decision D10): a release of a key that is down clears its level, and in AWAITING_KEY also writes the key's
number into `V[WAITREG]` and resumes; a release of a key that is not down, or in STOPPED, changes nothing. -/
def Obligations.KeyUpEndsTheWait : Prop :=
  ∀ (s : State) (k : Key),
    (s.es = .stopped ∨ s.key k = false → keyUp k s = s) ∧
    (s.es ≠ .stopped → s.key k = true →
      (keyUp k s).key k = false ∧ (∀ q, q ≠ k → (keyUp k s).key q = s.key q) ∧
      (s.es ≠ .awaitingKey → { keyUp k s with keys := s.keys } = s) ∧
      (s.es = .awaitingKey → (keyUp k s).es = .running ∧ ((keyUp k s).reg s.waitReg).toNat = k.toNat ∧
        RegsKeptExcept [s.waitReg] s (keyUp k s) ∧ { keyUp k s with keys := s.keys, es := s.es, v := s.v } = s))

/-- R183: ES becomes STOPPED from any state and nothing else changes, ERR included; in STOPPED it changes nothing. -/
def Obligations.QuitOnlyStops : Prop :=
  ∀ s : State, deliver .quit s = .next (quit s) ∧ (quit s).es = .stopped ∧ { quit s with es := s.es } = s ∧
    (s.es = .stopped → quit s = s)

/-- R194: the Execution State machine. Its fault column and its row STOPPED rest on the spec's decisions D1, D2, D25, and its
KeyUp entry in AWAITING_KEY (RUNNING exactly if the key is down) on decision D10 (log entry 9). -/
def Obligations.ExecutionStateFollowsItsTable : Prop :=
  ∀ (e : Event) (s t : State), deliver e s = .next t → esAllowed s e t.es ∧
    (e = .step → s.es = .running → t.es = .awaitingKey →
      ∃ x, decodeWord (s.mem.read s.pc.toNat ++ s.mem.read (s.pc.toNat + 1)) = some (.ldVxK x))

/-- R41, R186, R214: after HALTED_ERROR or STOPPED no sequence of events ever reaches RUNNING or AWAITING_KEY, and ERR is
kept. -/
def Obligations.EndedRunsStayEnded : Prop :=
  ∀ (es : List Event) (s t : State), hasEnded s = true → deliverAll es s = .next t → hasEnded t = true ∧ t.err = s.err

/-- R102, R214 (the definition of a settled program is the spec's decision D20): a settled program, running a jump to its own address, is left unchanged by a Step. -/
def Obligations.SettledProgramIsUnchangedByAStep : Prop := ∀ s : State, hasSettled s = true → step s = .next s

/-- R205: the image goes to 0x200 and up byte for byte and nothing else changes; an image longer than 3584 bytes is
refused as ProgramTooLarge. -/
def Obligations.LoadPlacesTheImage : Prop :=
  ∀ (image : List Byte) (s : State),
    (image.length ≤ 3584 → ∃ t, load image s = .next t ∧
      (∀ k (h : k < image.length), t.mem.read (0x200 + k) = image[k]'h) ∧
      MemKeptOutside 0x200 image.length s t ∧ { t with mem := s.mem } = s) ∧
    (3584 < image.length → load image s = .fault .programTooLarge)

/-! ### Reset and the invariant -/

/-- R40, R200: the state after Reset, for every FONT_TABLE, MEM_INIT and KEYS_INIT (R6). The values of ES, ERR, WAITREG, DISP, of memory outside
the font and of the keypad are the spec's decisions D6 and D27, the font base and bytes D4 and D5; `State.reset` is the
reset with the default parameters. -/
def Obligations.ResetLeavesTheTableOfValues : Prop :=
  (∀ (font : Fin fontLen → Byte) (init : Nat → Byte) (keys : Vector Bool 16) (s : State), s = State.resetWith font init keys →
    (∀ r, s.reg r = 0) ∧ s.i = 0 ∧ s.pc = 0x200#16 ∧ s.sp = 0 ∧ (∀ j (h : j < 16), s.stack[j]'h = 0) ∧ s.dt = 0 ∧ s.st = 0 ∧
    (∀ k : Fin fontLen, s.mem.read (0x050 + k.val) = font k) ∧
    (∀ a, a < 4096 → a < 0x050 ∨ 0x0A0 ≤ a → s.mem.read a = init a) ∧
    (∀ r c, s.disp.pixel r c = false) ∧ s.es = .running ∧ s.err = .none ∧ s.waitReg = 0 ∧ s.keys = keys) ∧
  State.reset = State.resetWith fontByte (fun _ => 0) (Vector.replicate 16 false)

/-- The invariant holds after Reset, for every FONT_TABLE, MEM_INIT and KEYS_INIT (R6). -/
def Obligations.ResetMeetsTheMachineBounds : Prop :=
  Inv State.reset ∧ ∀ (font : Fin fontLen → Byte) (init : Nat → Byte) (keys : Vector Bool 16), Inv (State.resetWith font init keys)

/-- Every Step keeps the invariant: canonical memory, pc at most 0x10FE (R23), return addresses at most 0x1000, ERR coherent with
ES (R41). The bounds rest on the spec's decision D1 (no fetch above 0xFFE), and the bound of every slot, live or not, on its slot
layout, decision D12 (log entry 4). -/
def Obligations.StepKeepsTheMachineBounds : Prop := ∀ s t : State, Inv s → step s = .next t → Inv t

/-- Every event of a run, not the Step alone, keeps the invariant (decisions D1 and D12, as for the Step). -/
def Obligations.EveryEventKeepsTheMachineBounds : Prop := ∀ (e : Event) (s t : State), Inv s → deliver e s = .next t → Inv t

/-- Every sequence of events, in any interleaving (R177, R195; decision D19), keeps the invariant (decisions D1 and D12, as for
the Step). -/
def Obligations.EventsKeepTheMachineBounds : Prop :=
  ∀ (es : List Event) (s t : State), Inv s → deliverAll es s = .next t → Inv t
end

