-- ==== Sys2Proof/Laws/Decode.lean ====
section
/-!
SUPPORT. Instruction words: each field of an assembled word is the field it was assembled from, and the other way round; every
instruction is well formed.
-/

namespace Sys2Proof

/-- Every term of Instr is well formed: its field types have the widths of R72. -/
theorem wellFormed_all (i : Instr) : i.wellFormed = true := by
  have r (x : BitVec 4) : x.toNat < 16 := x.isLt
  have b (x : BitVec 8) : x.toNat < 256 := x.isLt
  have a (x : BitVec 12) : x.toNat < 4096 := x.isLt
  cases i <;> simp [Instr.wellFormed, Instr.operands, Operand.fits, r, b, a]

/-! ### Fields of assembled words -/

section Fields
variable (m x y n : BitVec 4) (kk : Byte) (nnn : Addr12)

@[simp] theorem majorField_wordA : majorField (wordA m nnn) = m := by
  apply BitVec.eq_of_getLsbD_eq; intro i h
  simp only [majorField, wordA, BitVec.getLsbD_extractLsb', BitVec.getLsbD_append]; interval_cases i <;> simp
@[simp] theorem nnnField_wordA : nnnField (wordA m nnn) = nnn := by
  apply BitVec.eq_of_getLsbD_eq; intro i h
  simp only [nnnField, wordA, BitVec.getLsbD_extractLsb', BitVec.getLsbD_append]; interval_cases i <;> simp
@[simp] theorem majorField_wordRI : majorField (wordRI m x kk) = m := by
  apply BitVec.eq_of_getLsbD_eq; intro i h
  simp only [majorField, wordRI, BitVec.getLsbD_extractLsb', BitVec.getLsbD_append]; interval_cases i <;> simp
@[simp] theorem xField_wordRI : xField (wordRI m x kk) = x := by
  apply BitVec.eq_of_getLsbD_eq; intro i h
  simp only [xField, wordRI, BitVec.getLsbD_extractLsb', BitVec.getLsbD_append]; interval_cases i <;> simp
@[simp] theorem kkField_wordRI : kkField (wordRI m x kk) = kk := by
  apply BitVec.eq_of_getLsbD_eq; intro i h
  simp only [kkField, wordRI, BitVec.getLsbD_extractLsb', BitVec.getLsbD_append]; interval_cases i <;> simp
@[simp] theorem majorField_wordRRN : majorField (wordRRN m x y n) = m := by
  apply BitVec.eq_of_getLsbD_eq; intro i h
  simp only [majorField, wordRRN, BitVec.getLsbD_extractLsb', BitVec.getLsbD_append]; interval_cases i <;> simp
@[simp] theorem xField_wordRRN : xField (wordRRN m x y n) = x := by
  apply BitVec.eq_of_getLsbD_eq; intro i h
  simp only [xField, wordRRN, BitVec.getLsbD_extractLsb', BitVec.getLsbD_append]; interval_cases i <;> simp
@[simp] theorem yField_wordRRN : yField (wordRRN m x y n) = y := by
  apply BitVec.eq_of_getLsbD_eq; intro i h
  simp only [yField, wordRRN, BitVec.getLsbD_extractLsb', BitVec.getLsbD_append]; interval_cases i <;> simp
@[simp] theorem nField_wordRRN : nField (wordRRN m x y n) = n := by
  apply BitVec.eq_of_getLsbD_eq; intro i h
  simp only [nField, wordRRN, BitVec.getLsbD_extractLsb', BitVec.getLsbD_append]; interval_cases i <;> simp

end Fields

/-! ### A word is assembled from its own fields -/

section Words
variable (op : Word)

theorem wordA_fields : wordA (majorField op) (nnnField op) = op := by
  apply BitVec.eq_of_getLsbD_eq; intro i h
  simp only [majorField, nnnField, wordA, BitVec.getLsbD_extractLsb', BitVec.getLsbD_append]; interval_cases i <;> simp
theorem wordRI_fields : wordRI (majorField op) (xField op) (kkField op) = op := by
  apply BitVec.eq_of_getLsbD_eq; intro i h
  simp only [majorField, xField, kkField, wordRI, BitVec.getLsbD_extractLsb', BitVec.getLsbD_append]
  interval_cases i <;> simp
theorem wordRRN_fields : wordRRN (majorField op) (xField op) (yField op) (nField op) = op := by
  apply BitVec.eq_of_getLsbD_eq; intro i h
  simp only [majorField, xField, yField, nField, wordRRN, BitVec.getLsbD_extractLsb', BitVec.getLsbD_append]
  interval_cases i <;> simp
@[simp] theorem wordOfBytes_bytes : wordOfBytes (highByte op) (lowByte op) = op := by
  apply BitVec.eq_of_getLsbD_eq; intro i h
  simp only [highByte, lowByte, wordOfBytes, BitVec.getLsbD_extractLsb', BitVec.getLsbD_append]
  interval_cases i <;> simp

end Words

/-! ### The free fields masked away (R75) -/

section Masks
variable (m x y n : BitVec 4) (kk : Byte) (nnn : Addr12)

theorem wordA_major : wordA m nnn &&& 0xF000#16 = wordA m 0 := by
  apply BitVec.eq_of_getLsbD_eq; intro i h
  simp only [wordA, BitVec.getLsbD_and, BitVec.getLsbD_append]; interval_cases i <;> simp
theorem wordRI_major : wordRI m x kk &&& 0xF000#16 = wordRI m 0 0 := by
  apply BitVec.eq_of_getLsbD_eq; intro i h
  simp only [wordRI, BitVec.getLsbD_and, BitVec.getLsbD_append]; interval_cases i <;> simp
theorem wordRI_majorKk : wordRI m x kk &&& 0xF0FF#16 = wordRI m 0 kk := by
  apply BitVec.eq_of_getLsbD_eq; intro i h
  simp only [wordRI, BitVec.getLsbD_and, BitVec.getLsbD_append]; interval_cases i <;> simp
theorem wordRRN_major : wordRRN m x y n &&& 0xF000#16 = wordRRN m 0 0 0 := by
  apply BitVec.eq_of_getLsbD_eq; intro i h
  simp only [wordRRN, BitVec.getLsbD_and, BitVec.getLsbD_append]; interval_cases i <;> simp
theorem wordRRN_majorN : wordRRN m x y n &&& 0xF00F#16 = wordRRN m 0 0 n := by
  apply BitVec.eq_of_getLsbD_eq; intro i h
  simp only [wordRRN, BitVec.getLsbD_and, BitVec.getLsbD_append]; interval_cases i <;> simp

end Masks

/-- The decoder on the two bytes of a word is the decoder on the word. -/
theorem decode_bytes (op : Word) (rest : List Byte) : decode (highByte op :: lowByte op :: rest) =
    match decodeWord op with
    | some i => .ok (i, rest)
    | none => .error (.unknownOpcode op) := by
  simp only [decode, wordOfBytes_bytes] <;> cases decodeWord op <;> rfl

theorem decodeTableWord_eq (nbits w : Nat) : decodeTableWord nbits w = decodeWord (tableWord nbits w) := by
  simp only [decodeTableWord, decode_bytes]
  cases decodeWord (tableWord nbits w) <;> rfl

end Sys2Proof
end

