-- ==== Sys2Proof/Laws/State.lean ====
section
/-!
SUPPORT. What every update of the state does to every field: one lemma per field per update, each by rfl, so that no later proof
unfolds a record update; the same for the accessors `reg`, `key` and `npc`; and the unfolding of the composed updates.
-/

namespace Sys2Proof.Machine

variable (s : State)

/-! ### setReg -/

@[simp] theorem State.setReg_v (x : Reg) (b : Byte) : (s.setReg x b).v = s.v.set x.toNat b x.isLt := rfl
@[simp] theorem State.setReg_i (x : Reg) (b : Byte) : (s.setReg x b).i = s.i := rfl
@[simp] theorem State.setReg_pc (x : Reg) (b : Byte) : (s.setReg x b).pc = s.pc := rfl
@[simp] theorem State.setReg_stack (x : Reg) (b : Byte) : (s.setReg x b).stack = s.stack := rfl
@[simp] theorem State.setReg_sp (x : Reg) (b : Byte) : (s.setReg x b).sp = s.sp := rfl
@[simp] theorem State.setReg_dt (x : Reg) (b : Byte) : (s.setReg x b).dt = s.dt := rfl
@[simp] theorem State.setReg_st (x : Reg) (b : Byte) : (s.setReg x b).st = s.st := rfl
@[simp] theorem State.setReg_mem (x : Reg) (b : Byte) : (s.setReg x b).mem = s.mem := rfl
@[simp] theorem State.setReg_disp (x : Reg) (b : Byte) : (s.setReg x b).disp = s.disp := rfl
@[simp] theorem State.setReg_keys (x : Reg) (b : Byte) : (s.setReg x b).keys = s.keys := rfl
@[simp] theorem State.setReg_es (x : Reg) (b : Byte) : (s.setReg x b).es = s.es := rfl
@[simp] theorem State.setReg_err (x : Reg) (b : Byte) : (s.setReg x b).err = s.err := rfl
@[simp] theorem State.setReg_waitReg (x : Reg) (b : Byte) : (s.setReg x b).waitReg = s.waitReg := rfl
@[simp] theorem State.setReg_draws (x : Reg) (b : Byte) : (s.setReg x b).draws = s.draws := rfl
@[simp] theorem State.setReg_key (x : Reg) (b : Byte) (q : Key) : (s.setReg x b).key q = s.key q := rfl
@[simp] theorem State.setReg_drawByte (x : Reg) (b : Byte) : (s.setReg x b).drawByte = s.drawByte := rfl
@[simp] theorem State.setReg_npc (x : Reg) (b : Byte) : (s.setReg x b).npc = s.npc := rfl

/-! ### setPc -/

@[simp] theorem State.setPc_v (a : Word) : (s.setPc a).v = s.v := rfl
@[simp] theorem State.setPc_i (a : Word) : (s.setPc a).i = s.i := rfl
@[simp] theorem State.setPc_pc (a : Word) : (s.setPc a).pc = a := rfl
@[simp] theorem State.setPc_stack (a : Word) : (s.setPc a).stack = s.stack := rfl
@[simp] theorem State.setPc_sp (a : Word) : (s.setPc a).sp = s.sp := rfl
@[simp] theorem State.setPc_dt (a : Word) : (s.setPc a).dt = s.dt := rfl
@[simp] theorem State.setPc_st (a : Word) : (s.setPc a).st = s.st := rfl
@[simp] theorem State.setPc_mem (a : Word) : (s.setPc a).mem = s.mem := rfl
@[simp] theorem State.setPc_disp (a : Word) : (s.setPc a).disp = s.disp := rfl
@[simp] theorem State.setPc_keys (a : Word) : (s.setPc a).keys = s.keys := rfl
@[simp] theorem State.setPc_es (a : Word) : (s.setPc a).es = s.es := rfl
@[simp] theorem State.setPc_err (a : Word) : (s.setPc a).err = s.err := rfl
@[simp] theorem State.setPc_waitReg (a : Word) : (s.setPc a).waitReg = s.waitReg := rfl
@[simp] theorem State.setPc_draws (a : Word) : (s.setPc a).draws = s.draws := rfl
@[simp] theorem State.setPc_reg (a : Word) (r : Reg) : (s.setPc a).reg r = s.reg r := rfl
@[simp] theorem State.setPc_key (a : Word) (q : Key) : (s.setPc a).key q = s.key q := rfl
@[simp] theorem State.setPc_drawByte (a : Word) : (s.setPc a).drawByte = s.drawByte := rfl
@[simp] theorem State.setPc_npc (a : Word) : (s.setPc a).npc = a + 2 := rfl

/-! ### raise -/

@[simp] theorem State.raise_v (c : ErrorCause) : (s.raise c).v = s.v := rfl
@[simp] theorem State.raise_i (c : ErrorCause) : (s.raise c).i = s.i := rfl
@[simp] theorem State.raise_pc (c : ErrorCause) : (s.raise c).pc = s.pc := rfl
@[simp] theorem State.raise_stack (c : ErrorCause) : (s.raise c).stack = s.stack := rfl
@[simp] theorem State.raise_sp (c : ErrorCause) : (s.raise c).sp = s.sp := rfl
@[simp] theorem State.raise_dt (c : ErrorCause) : (s.raise c).dt = s.dt := rfl
@[simp] theorem State.raise_st (c : ErrorCause) : (s.raise c).st = s.st := rfl
@[simp] theorem State.raise_mem (c : ErrorCause) : (s.raise c).mem = s.mem := rfl
@[simp] theorem State.raise_disp (c : ErrorCause) : (s.raise c).disp = s.disp := rfl
@[simp] theorem State.raise_keys (c : ErrorCause) : (s.raise c).keys = s.keys := rfl
@[simp] theorem State.raise_es (c : ErrorCause) : (s.raise c).es = .haltedError := rfl
@[simp] theorem State.raise_err (c : ErrorCause) : (s.raise c).err = c := rfl
@[simp] theorem State.raise_waitReg (c : ErrorCause) : (s.raise c).waitReg = s.waitReg := rfl
@[simp] theorem State.raise_draws (c : ErrorCause) : (s.raise c).draws = s.draws := rfl
@[simp] theorem State.raise_reg (c : ErrorCause) (r : Reg) : (s.raise c).reg r = s.reg r := rfl
@[simp] theorem State.raise_key (c : ErrorCause) (q : Key) : (s.raise c).key q = s.key q := rfl
@[simp] theorem State.raise_drawByte (c : ErrorCause) : (s.raise c).drawByte = s.drawByte := rfl
@[simp] theorem State.raise_npc (c : ErrorCause) : (s.raise c).npc = s.npc := rfl

/-! ### setI -/

@[simp] theorem State.setI_v (a : Word) : (s.setI a).v = s.v := rfl
@[simp] theorem State.setI_i (a : Word) : (s.setI a).i = a := rfl
@[simp] theorem State.setI_pc (a : Word) : (s.setI a).pc = s.pc := rfl
@[simp] theorem State.setI_stack (a : Word) : (s.setI a).stack = s.stack := rfl
@[simp] theorem State.setI_sp (a : Word) : (s.setI a).sp = s.sp := rfl
@[simp] theorem State.setI_dt (a : Word) : (s.setI a).dt = s.dt := rfl
@[simp] theorem State.setI_st (a : Word) : (s.setI a).st = s.st := rfl
@[simp] theorem State.setI_mem (a : Word) : (s.setI a).mem = s.mem := rfl
@[simp] theorem State.setI_disp (a : Word) : (s.setI a).disp = s.disp := rfl
@[simp] theorem State.setI_keys (a : Word) : (s.setI a).keys = s.keys := rfl
@[simp] theorem State.setI_es (a : Word) : (s.setI a).es = s.es := rfl
@[simp] theorem State.setI_err (a : Word) : (s.setI a).err = s.err := rfl
@[simp] theorem State.setI_waitReg (a : Word) : (s.setI a).waitReg = s.waitReg := rfl
@[simp] theorem State.setI_draws (a : Word) : (s.setI a).draws = s.draws := rfl
@[simp] theorem State.setI_reg (a : Word) (r : Reg) : (s.setI a).reg r = s.reg r := rfl
@[simp] theorem State.setI_key (a : Word) (q : Key) : (s.setI a).key q = s.key q := rfl
@[simp] theorem State.setI_drawByte (a : Word) : (s.setI a).drawByte = s.drawByte := rfl
@[simp] theorem State.setI_npc (a : Word) : (s.setI a).npc = s.npc := rfl

/-! ### setDT -/

@[simp] theorem State.setDT_v (b : Byte) : (s.setDT b).v = s.v := rfl
@[simp] theorem State.setDT_i (b : Byte) : (s.setDT b).i = s.i := rfl
@[simp] theorem State.setDT_pc (b : Byte) : (s.setDT b).pc = s.pc := rfl
@[simp] theorem State.setDT_stack (b : Byte) : (s.setDT b).stack = s.stack := rfl
@[simp] theorem State.setDT_sp (b : Byte) : (s.setDT b).sp = s.sp := rfl
@[simp] theorem State.setDT_dt (b : Byte) : (s.setDT b).dt = b := rfl
@[simp] theorem State.setDT_st (b : Byte) : (s.setDT b).st = s.st := rfl
@[simp] theorem State.setDT_mem (b : Byte) : (s.setDT b).mem = s.mem := rfl
@[simp] theorem State.setDT_disp (b : Byte) : (s.setDT b).disp = s.disp := rfl
@[simp] theorem State.setDT_keys (b : Byte) : (s.setDT b).keys = s.keys := rfl
@[simp] theorem State.setDT_es (b : Byte) : (s.setDT b).es = s.es := rfl
@[simp] theorem State.setDT_err (b : Byte) : (s.setDT b).err = s.err := rfl
@[simp] theorem State.setDT_waitReg (b : Byte) : (s.setDT b).waitReg = s.waitReg := rfl
@[simp] theorem State.setDT_draws (b : Byte) : (s.setDT b).draws = s.draws := rfl
@[simp] theorem State.setDT_reg (b : Byte) (r : Reg) : (s.setDT b).reg r = s.reg r := rfl
@[simp] theorem State.setDT_key (b : Byte) (q : Key) : (s.setDT b).key q = s.key q := rfl
@[simp] theorem State.setDT_drawByte (b : Byte) : (s.setDT b).drawByte = s.drawByte := rfl
@[simp] theorem State.setDT_npc (b : Byte) : (s.setDT b).npc = s.npc := rfl

/-! ### setST -/

@[simp] theorem State.setST_v (b : Byte) : (s.setST b).v = s.v := rfl
@[simp] theorem State.setST_i (b : Byte) : (s.setST b).i = s.i := rfl
@[simp] theorem State.setST_pc (b : Byte) : (s.setST b).pc = s.pc := rfl
@[simp] theorem State.setST_stack (b : Byte) : (s.setST b).stack = s.stack := rfl
@[simp] theorem State.setST_sp (b : Byte) : (s.setST b).sp = s.sp := rfl
@[simp] theorem State.setST_dt (b : Byte) : (s.setST b).dt = s.dt := rfl
@[simp] theorem State.setST_st (b : Byte) : (s.setST b).st = b := rfl
@[simp] theorem State.setST_mem (b : Byte) : (s.setST b).mem = s.mem := rfl
@[simp] theorem State.setST_disp (b : Byte) : (s.setST b).disp = s.disp := rfl
@[simp] theorem State.setST_keys (b : Byte) : (s.setST b).keys = s.keys := rfl
@[simp] theorem State.setST_es (b : Byte) : (s.setST b).es = s.es := rfl
@[simp] theorem State.setST_err (b : Byte) : (s.setST b).err = s.err := rfl
@[simp] theorem State.setST_waitReg (b : Byte) : (s.setST b).waitReg = s.waitReg := rfl
@[simp] theorem State.setST_draws (b : Byte) : (s.setST b).draws = s.draws := rfl
@[simp] theorem State.setST_reg (b : Byte) (r : Reg) : (s.setST b).reg r = s.reg r := rfl
@[simp] theorem State.setST_key (b : Byte) (q : Key) : (s.setST b).key q = s.key q := rfl
@[simp] theorem State.setST_drawByte (b : Byte) : (s.setST b).drawByte = s.drawByte := rfl
@[simp] theorem State.setST_npc (b : Byte) : (s.setST b).npc = s.npc := rfl

/-! ### drop -/

@[simp] theorem State.drop_v : (s.drop).v = s.v := rfl
@[simp] theorem State.drop_i : (s.drop).i = s.i := rfl
@[simp] theorem State.drop_pc : (s.drop).pc = s.pc := rfl
@[simp] theorem State.drop_stack : (s.drop).stack = s.stack := rfl
@[simp] theorem State.drop_sp : (s.drop).sp = ⟨s.sp.val - 1, by omega⟩ := rfl
@[simp] theorem State.drop_dt : (s.drop).dt = s.dt := rfl
@[simp] theorem State.drop_st : (s.drop).st = s.st := rfl
@[simp] theorem State.drop_mem : (s.drop).mem = s.mem := rfl
@[simp] theorem State.drop_disp : (s.drop).disp = s.disp := rfl
@[simp] theorem State.drop_keys : (s.drop).keys = s.keys := rfl
@[simp] theorem State.drop_es : (s.drop).es = s.es := rfl
@[simp] theorem State.drop_err : (s.drop).err = s.err := rfl
@[simp] theorem State.drop_waitReg : (s.drop).waitReg = s.waitReg := rfl
@[simp] theorem State.drop_draws : (s.drop).draws = s.draws := rfl
@[simp] theorem State.drop_reg (r : Reg) : (s.drop).reg r = s.reg r := rfl
@[simp] theorem State.drop_key (q : Key) : (s.drop).key q = s.key q := rfl
@[simp] theorem State.drop_drawByte : (s.drop).drawByte = s.drawByte := rfl
@[simp] theorem State.drop_npc : (s.drop).npc = s.npc := rfl

/-! ### setMem -/

@[simp] theorem State.setMem_v (m : Memory) : (s.setMem m).v = s.v := rfl
@[simp] theorem State.setMem_i (m : Memory) : (s.setMem m).i = s.i := rfl
@[simp] theorem State.setMem_pc (m : Memory) : (s.setMem m).pc = s.pc := rfl
@[simp] theorem State.setMem_stack (m : Memory) : (s.setMem m).stack = s.stack := rfl
@[simp] theorem State.setMem_sp (m : Memory) : (s.setMem m).sp = s.sp := rfl
@[simp] theorem State.setMem_dt (m : Memory) : (s.setMem m).dt = s.dt := rfl
@[simp] theorem State.setMem_st (m : Memory) : (s.setMem m).st = s.st := rfl
@[simp] theorem State.setMem_mem (m : Memory) : (s.setMem m).mem = m := rfl
@[simp] theorem State.setMem_disp (m : Memory) : (s.setMem m).disp = s.disp := rfl
@[simp] theorem State.setMem_keys (m : Memory) : (s.setMem m).keys = s.keys := rfl
@[simp] theorem State.setMem_es (m : Memory) : (s.setMem m).es = s.es := rfl
@[simp] theorem State.setMem_err (m : Memory) : (s.setMem m).err = s.err := rfl
@[simp] theorem State.setMem_waitReg (m : Memory) : (s.setMem m).waitReg = s.waitReg := rfl
@[simp] theorem State.setMem_draws (m : Memory) : (s.setMem m).draws = s.draws := rfl
@[simp] theorem State.setMem_reg (m : Memory) (r : Reg) : (s.setMem m).reg r = s.reg r := rfl
@[simp] theorem State.setMem_key (m : Memory) (q : Key) : (s.setMem m).key q = s.key q := rfl
@[simp] theorem State.setMem_drawByte (m : Memory) : (s.setMem m).drawByte = s.drawByte := rfl
@[simp] theorem State.setMem_npc (m : Memory) : (s.setMem m).npc = s.npc := rfl

/-! ### setDisp -/

@[simp] theorem State.setDisp_v (d : Display) : (s.setDisp d).v = s.v := rfl
@[simp] theorem State.setDisp_i (d : Display) : (s.setDisp d).i = s.i := rfl
@[simp] theorem State.setDisp_pc (d : Display) : (s.setDisp d).pc = s.pc := rfl
@[simp] theorem State.setDisp_stack (d : Display) : (s.setDisp d).stack = s.stack := rfl
@[simp] theorem State.setDisp_sp (d : Display) : (s.setDisp d).sp = s.sp := rfl
@[simp] theorem State.setDisp_dt (d : Display) : (s.setDisp d).dt = s.dt := rfl
@[simp] theorem State.setDisp_st (d : Display) : (s.setDisp d).st = s.st := rfl
@[simp] theorem State.setDisp_mem (d : Display) : (s.setDisp d).mem = s.mem := rfl
@[simp] theorem State.setDisp_disp (d : Display) : (s.setDisp d).disp = d := rfl
@[simp] theorem State.setDisp_keys (d : Display) : (s.setDisp d).keys = s.keys := rfl
@[simp] theorem State.setDisp_es (d : Display) : (s.setDisp d).es = s.es := rfl
@[simp] theorem State.setDisp_err (d : Display) : (s.setDisp d).err = s.err := rfl
@[simp] theorem State.setDisp_waitReg (d : Display) : (s.setDisp d).waitReg = s.waitReg := rfl
@[simp] theorem State.setDisp_draws (d : Display) : (s.setDisp d).draws = s.draws := rfl
@[simp] theorem State.setDisp_reg (d : Display) (r : Reg) : (s.setDisp d).reg r = s.reg r := rfl
@[simp] theorem State.setDisp_key (d : Display) (q : Key) : (s.setDisp d).key q = s.key q := rfl
@[simp] theorem State.setDisp_drawByte (d : Display) : (s.setDisp d).drawByte = s.drawByte := rfl
@[simp] theorem State.setDisp_npc (d : Display) : (s.setDisp d).npc = s.npc := rfl

/-! ### setKey -/

@[simp] theorem State.setKey_v (k : Key) (b : Bool) : (s.setKey k b).v = s.v := rfl
@[simp] theorem State.setKey_i (k : Key) (b : Bool) : (s.setKey k b).i = s.i := rfl
@[simp] theorem State.setKey_pc (k : Key) (b : Bool) : (s.setKey k b).pc = s.pc := rfl
@[simp] theorem State.setKey_stack (k : Key) (b : Bool) : (s.setKey k b).stack = s.stack := rfl
@[simp] theorem State.setKey_sp (k : Key) (b : Bool) : (s.setKey k b).sp = s.sp := rfl
@[simp] theorem State.setKey_dt (k : Key) (b : Bool) : (s.setKey k b).dt = s.dt := rfl
@[simp] theorem State.setKey_st (k : Key) (b : Bool) : (s.setKey k b).st = s.st := rfl
@[simp] theorem State.setKey_mem (k : Key) (b : Bool) : (s.setKey k b).mem = s.mem := rfl
@[simp] theorem State.setKey_disp (k : Key) (b : Bool) : (s.setKey k b).disp = s.disp := rfl
@[simp] theorem State.setKey_keys (k : Key) (b : Bool) : (s.setKey k b).keys = s.keys.set k.toNat b k.isLt := rfl
@[simp] theorem State.setKey_es (k : Key) (b : Bool) : (s.setKey k b).es = s.es := rfl
@[simp] theorem State.setKey_err (k : Key) (b : Bool) : (s.setKey k b).err = s.err := rfl
@[simp] theorem State.setKey_waitReg (k : Key) (b : Bool) : (s.setKey k b).waitReg = s.waitReg := rfl
@[simp] theorem State.setKey_draws (k : Key) (b : Bool) : (s.setKey k b).draws = s.draws := rfl
@[simp] theorem State.setKey_reg (k : Key) (b : Bool) (r : Reg) : (s.setKey k b).reg r = s.reg r := rfl
@[simp] theorem State.setKey_drawByte (k : Key) (b : Bool) : (s.setKey k b).drawByte = s.drawByte := rfl
@[simp] theorem State.setKey_npc (k : Key) (b : Bool) : (s.setKey k b).npc = s.npc := rfl

/-! ### setES -/

@[simp] theorem State.setES_v (e : ExecState) : (s.setES e).v = s.v := rfl
@[simp] theorem State.setES_i (e : ExecState) : (s.setES e).i = s.i := rfl
@[simp] theorem State.setES_pc (e : ExecState) : (s.setES e).pc = s.pc := rfl
@[simp] theorem State.setES_stack (e : ExecState) : (s.setES e).stack = s.stack := rfl
@[simp] theorem State.setES_sp (e : ExecState) : (s.setES e).sp = s.sp := rfl
@[simp] theorem State.setES_dt (e : ExecState) : (s.setES e).dt = s.dt := rfl
@[simp] theorem State.setES_st (e : ExecState) : (s.setES e).st = s.st := rfl
@[simp] theorem State.setES_mem (e : ExecState) : (s.setES e).mem = s.mem := rfl
@[simp] theorem State.setES_disp (e : ExecState) : (s.setES e).disp = s.disp := rfl
@[simp] theorem State.setES_keys (e : ExecState) : (s.setES e).keys = s.keys := rfl
@[simp] theorem State.setES_es (e : ExecState) : (s.setES e).es = e := rfl
@[simp] theorem State.setES_err (e : ExecState) : (s.setES e).err = s.err := rfl
@[simp] theorem State.setES_waitReg (e : ExecState) : (s.setES e).waitReg = s.waitReg := rfl
@[simp] theorem State.setES_draws (e : ExecState) : (s.setES e).draws = s.draws := rfl
@[simp] theorem State.setES_reg (e : ExecState) (r : Reg) : (s.setES e).reg r = s.reg r := rfl
@[simp] theorem State.setES_key (e : ExecState) (q : Key) : (s.setES e).key q = s.key q := rfl
@[simp] theorem State.setES_drawByte (e : ExecState) : (s.setES e).drawByte = s.drawByte := rfl
@[simp] theorem State.setES_npc (e : ExecState) : (s.setES e).npc = s.npc := rfl

/-! ### awaitKey -/

@[simp] theorem State.awaitKey_v (x : Reg) : (s.awaitKey x).v = s.v := rfl
@[simp] theorem State.awaitKey_i (x : Reg) : (s.awaitKey x).i = s.i := rfl
@[simp] theorem State.awaitKey_pc (x : Reg) : (s.awaitKey x).pc = s.pc := rfl
@[simp] theorem State.awaitKey_stack (x : Reg) : (s.awaitKey x).stack = s.stack := rfl
@[simp] theorem State.awaitKey_sp (x : Reg) : (s.awaitKey x).sp = s.sp := rfl
@[simp] theorem State.awaitKey_dt (x : Reg) : (s.awaitKey x).dt = s.dt := rfl
@[simp] theorem State.awaitKey_st (x : Reg) : (s.awaitKey x).st = s.st := rfl
@[simp] theorem State.awaitKey_mem (x : Reg) : (s.awaitKey x).mem = s.mem := rfl
@[simp] theorem State.awaitKey_disp (x : Reg) : (s.awaitKey x).disp = s.disp := rfl
@[simp] theorem State.awaitKey_keys (x : Reg) : (s.awaitKey x).keys = s.keys := rfl
@[simp] theorem State.awaitKey_es (x : Reg) : (s.awaitKey x).es = .awaitingKey := rfl
@[simp] theorem State.awaitKey_err (x : Reg) : (s.awaitKey x).err = s.err := rfl
@[simp] theorem State.awaitKey_waitReg (x : Reg) : (s.awaitKey x).waitReg = x := rfl
@[simp] theorem State.awaitKey_draws (x : Reg) : (s.awaitKey x).draws = s.draws := rfl
@[simp] theorem State.awaitKey_reg (x : Reg) (r : Reg) : (s.awaitKey x).reg r = s.reg r := rfl
@[simp] theorem State.awaitKey_key (x : Reg) (q : Key) : (s.awaitKey x).key q = s.key q := rfl
@[simp] theorem State.awaitKey_drawByte (x : Reg) : (s.awaitKey x).drawByte = s.drawByte := rfl
@[simp] theorem State.awaitKey_npc (x : Reg) : (s.awaitKey x).npc = s.npc := rfl

/-! ### nextDraw -/

@[simp] theorem State.nextDraw_v : (s.nextDraw).v = s.v := rfl
@[simp] theorem State.nextDraw_i : (s.nextDraw).i = s.i := rfl
@[simp] theorem State.nextDraw_pc : (s.nextDraw).pc = s.pc := rfl
@[simp] theorem State.nextDraw_stack : (s.nextDraw).stack = s.stack := rfl
@[simp] theorem State.nextDraw_sp : (s.nextDraw).sp = s.sp := rfl
@[simp] theorem State.nextDraw_dt : (s.nextDraw).dt = s.dt := rfl
@[simp] theorem State.nextDraw_st : (s.nextDraw).st = s.st := rfl
@[simp] theorem State.nextDraw_mem : (s.nextDraw).mem = s.mem := rfl
@[simp] theorem State.nextDraw_disp : (s.nextDraw).disp = s.disp := rfl
@[simp] theorem State.nextDraw_keys : (s.nextDraw).keys = s.keys := rfl
@[simp] theorem State.nextDraw_es : (s.nextDraw).es = s.es := rfl
@[simp] theorem State.nextDraw_err : (s.nextDraw).err = s.err := rfl
@[simp] theorem State.nextDraw_waitReg : (s.nextDraw).waitReg = s.waitReg := rfl
@[simp] theorem State.nextDraw_draws : (s.nextDraw).draws = s.draws + 1 := rfl
@[simp] theorem State.nextDraw_reg (r : Reg) : (s.nextDraw).reg r = s.reg r := rfl
@[simp] theorem State.nextDraw_key (q : Key) : (s.nextDraw).key q = s.key q := rfl
@[simp] theorem State.nextDraw_npc : (s.nextDraw).npc = s.npc := rfl

/-! ### Composed updates -/

@[simp] theorem State.advance_eq : s.advance = s.setPc s.npc := rfl
@[simp] theorem State.skipIf_eq (c : Bool) : s.skipIf c = s.setPc (if c then s.npc + 2 else s.npc) := rfl
@[simp] theorem State.storeBytes_eq (a : Nat) (bs : List Byte) : s.storeBytes a bs = s.setMem (s.mem.writeBytes a bs) := rfl
@[simp] theorem State.resultThenFlag_eq (x : Reg) (b : Byte) (c : Bool) :
    s.resultThenFlag x b c = (s.setReg x b).setReg flagReg (flagByte c) := rfl
@[simp] theorem State.flagThenResult_eq (x : Reg) (b : Byte) (c : Bool) :
    s.flagThenResult x b c = (s.setReg flagReg (flagByte c)).setReg x b := rfl
@[simp] theorem State.endWait_eq (k : Key) :
    s.endWait k = (s.setReg s.waitReg (k.zeroExtend 8)).setES .running := rfl

/-! ### Reset with its parameters -/

@[simp] theorem State.resetWith_mem (font : Fin fontLen → Byte) (init : Nat → Byte) (keys : Vector Bool 16) :
    (State.resetWith font init keys).mem = Memory.ofReset font init := by simp only [State.resetWith]
@[simp] theorem State.resetWith_keys (font : Fin fontLen → Byte) (init : Nat → Byte) (keys : Vector Bool 16) :
    (State.resetWith font init keys).keys = keys := by simp only [State.resetWith]
/-- Memory and keypad apart, every parametrised reset is the reset state. -/
theorem State.resetWith_rest (font : Fin fontLen → Byte) (init : Nat → Byte) (keys : Vector Bool 16) :
    { State.resetWith font init keys with mem := State.reset.mem, keys := State.reset.keys } = State.reset := by
  simp only [State.resetWith]

end Sys2Proof.Machine
end

