-- ==== Sys2Proof/Laws/Display.lean ====
section
/-!
SUPPORT. The display: what flipping one pixel, the column loop and the row loop of R151 do to each pixel, and when they report a
collision.
-/

namespace Sys2Proof.Machine

theorem pixel_of_lt (d : Display) {r c : Nat} (hr : r < 32) (hc : c < 64) : Display.pixel d r c = d[r][c] := by
  simp [Display.pixel, hr, hc]

theorem pixel_outside (d : Display) {r c : Nat} (h : ¬(r < 32 ∧ c < 64)) : Display.pixel d r c = false := by
  simp only [Display.pixel, h, dite_false]

/-- Two displays with the same pixels are the same display. -/
theorem display_ext {d e : Display} (h : ∀ r c, Display.pixel d r c = Display.pixel e r c) : d = e := by
  apply Vector.ext
  intro r hr
  apply Vector.ext
  intro c hc
  simpa [pixel_of_lt, hr, hc] using h r c

@[simp] theorem pixel_clear (r c : Nat) : Display.pixel Display.clear r c = false := by
  by_cases h : r < 32 ∧ c < 64
  · simp [pixel_of_lt _ h.1 h.2, Display.clear]
  · exact pixel_outside _ h

theorem pixel_flip (d : Display) (r c r' c' : Nat) : Display.pixel (Display.flip d r c) r' c' =
    if r = r' ∧ c = c' ∧ r < 32 ∧ c < 64 then !Display.pixel d r c else Display.pixel d r' c' := by
  by_cases h : r < 32 ∧ c < 64
  · by_cases h' : r' < 32 ∧ c' < 64
    · obtain ⟨hr, hc⟩ := h
      obtain ⟨hr', hc'⟩ := h'
      simp only [pixel_of_lt _ hr' hc', pixel_of_lt _ hr hc, Display.flip, hr, hc, and_self, and_true, dite_true]
      by_cases er : r = r'
      · subst er
        by_cases ec : c = c'
        · subst ec; simp
        · simp [ec]
      · simp [er]
    · rw [pixel_outside _ h', pixel_outside _ h', if_neg (by omega)]
  · have hf : Display.flip d r c = d := by simp only [Display.flip, h, dite_false]
    rw [hf, if_neg (by tauto)]

/-- The sprite bit that falls on column offset `c`, bit `7 - c` of the row byte (R152). -/
def spriteBit (row : Byte) (c : Nat) : Bool := decide (c < 8) && row.getLsbD (7 - c)

/-- The column loop over offsets `c0, c0+1, ..., 7`, in row `r` of the display: it flips exactly the pixels under a sprite bit
that is 1 and on the display. -/
theorem drawBits_pixel (k : Canvas) (row : Byte) (r x0 c0 m r' c' : Nat) (hm : c0 + m = 8) :
    Display.pixel (k.drawBits row r x0 (List.range' c0 m)).disp r' c' =
      (Display.pixel k.disp r' c' ^^
        (decide (r' = r ∧ r < 32 ∧ x0 + c0 ≤ c' ∧ c' < 64) && spriteBit row (c' - x0))) := by
  induction m generalizing k c0 with
  | zero =>
    have : ¬ (r' = r ∧ r < 32 ∧ x0 + c0 ≤ c' ∧ c' < 64 ∧ c' - x0 < 8) := by omega
    have : (decide (r' = r ∧ r < 32 ∧ x0 + c0 ≤ c' ∧ c' < 64) && spriteBit row (c' - x0)) = false := by
      by_cases h1 : r' = r ∧ r < 32 ∧ x0 + c0 ≤ c' ∧ c' < 64
      · have : ¬ c' - x0 < 8 := by omega
        simp [spriteBit, this]
      · simp only [h1, decide_false, Bool.false_and]
    rw [this]; simp [List.range', Canvas.drawBits]
  | succ m ih =>
    rw [List.range', Canvas.drawBits]
    by_cases hx : 64 ≤ x0 + c0
    · have h1 : ¬ (r' = r ∧ r < 32 ∧ x0 + c0 ≤ c' ∧ c' < 64) := by omega
      simp only [hx, if_true, h1, decide_false, Bool.false_and, Bool.xor_false]
    · rw [if_neg hx, ih _ _ (by omega)]
      by_cases hc : c' = x0 + c0
      · subst hc
        have e1 : ¬ (x0 + (c0 + 1) ≤ x0 + c0) := by omega
        have e2 : x0 + c0 - x0 = c0 := by omega
        have e3 : c0 < 8 := by omega
        have e4 : x0 + c0 < 64 := by omega
        by_cases hb : row.getLsbD (7 - c0)
        · by_cases hr : r' = r ∧ r < 32
          · obtain ⟨rfl, hr⟩ := hr
            simp [hb, Canvas.plot, pixel_flip, hr, e4, e1, e2, e3, spriteBit]
          · have h2 : ¬ (r = r' ∧ r < 32) := by tauto
            have h3 : ¬ (r = r' ∧ True ∧ r < 32 ∧ x0 + c0 < 64) := by tauto
            have h4 : ¬ (r' = r ∧ r < 32 ∧ x0 + c0 ≤ x0 + c0 ∧ x0 + c0 < 64) := by tauto
            have h5 : ¬ (r' = r ∧ r < 32 ∧ x0 + (c0 + 1) ≤ x0 + c0 ∧ x0 + c0 < 64) := by tauto
            simp only [hb, if_true, Canvas.plot, pixel_flip, h3, if_false, h4, h5, decide_false, Bool.false_and]
        · simp [hb, e1, e2, spriteBit]
      · have hp : Display.pixel (if row.getLsbD (7 - c0) = true then k.plot r (x0 + c0) else k).disp r' c'
            = Display.pixel k.disp r' c' := by
          split
          · rw [Canvas.plot, pixel_flip, if_neg (by omega)]
          · rfl
        have hi : (x0 + (c0 + 1) ≤ c') ↔ (x0 + c0 ≤ c') := by omega
        rw [hp]; simp only [hi]

/-- The column loop reports a collision exactly when it flips a pixel that was 1, or one was reported before. -/
theorem drawBits_hit (k : Canvas) (row : Byte) (r x0 c0 m : Nat) (hm : c0 + m = 8) :
    (k.drawBits row r x0 (List.range' c0 m)).hit = true ↔
      k.hit = true ∨ ∃ c, c0 ≤ c ∧ c < 8 ∧ x0 + c < 64 ∧ spriteBit row c = true ∧ Display.pixel k.disp r (x0 + c) = true := by
  induction m generalizing k c0 with
  | zero =>
    simp only [List.range', Canvas.drawBits]
    constructor
    · exact Or.inl
    · rintro (h | ⟨c, h1, h2, -⟩)
      · exact h
      · omega
  | succ m ih =>
    rw [List.range', Canvas.drawBits]
    by_cases hx : 64 ≤ x0 + c0
    · rw [if_pos hx]
      constructor
      · exact Or.inl
      · rintro (h | ⟨c, h1, h2, h3, -⟩)
        · exact h
        · omega
    · rw [if_neg hx, ih _ _ (by omega)]
      have key : ∀ c, c0 + 1 ≤ c → Display.pixel (if row.getLsbD (7 - c0) = true then k.plot r (x0 + c0) else k).disp r (x0 + c)
          = Display.pixel k.disp r (x0 + c) := by
        intro c hc
        split
        · rw [Canvas.plot, pixel_flip, if_neg (by omega)]
        · rfl
      constructor
      · rintro (h | ⟨c, h1, h2, h3, h4, h5⟩)
        · by_cases hb : row.getLsbD (7 - c0) = true
          · rw [if_pos hb] at h
            rcases Bool.or_eq_true_iff.mp h with h | h
            · exact .inl h
            · exact .inr ⟨c0, le_refl _, by omega, by omega, by simp [spriteBit, hb]; omega, h⟩
          · rw [if_neg hb] at h; exact .inl h
        · exact .inr ⟨c, by omega, h2, h3, h4, by rw [← key c h1]; exact h5⟩
      · rintro (h | ⟨c, h1, h2, h3, h4, h5⟩)
        · left; split
          · simp [Canvas.plot, h]
          · exact h
        · by_cases hc : c = c0
          · subst hc
            have hb : row.getLsbD (7 - c) = true := by simpa [spriteBit, h2] using h4
            left; simp [hb, Canvas.plot, h5]
          · exact .inr ⟨c, by omega, h2, h3, h4, by rw [key c (by omega)]; exact h5⟩

/-- The whole sprite: sprite row `q` falls on display row `r0 + q`, sprite column offset `c` on display column `x0 + c`. -/
def spritePixel (rows : List Byte) (r0 x0 r c : Nat) : Bool :=
  decide (r0 ≤ r ∧ x0 ≤ c) && spriteBit (rows.getD (r - r0) 0) (c - x0)

theorem spriteBit_iff (row : Byte) (c : Nat) : spriteBit row c = true ↔ c < 8 ∧ row.getLsbD (7 - c) = true := by
  unfold spriteBit
  exact Bool.and_eq_true_iff.trans (and_congr_left' decide_eq_true_iff)

theorem spritePixel_iff (rows : List Byte) (r0 x0 r c : Nat) : spritePixel rows r0 x0 r c = true ↔
    (r0 ≤ r ∧ x0 ≤ c) ∧ spriteBit (rows.getD (r - r0) 0) (c - x0) = true := by
  unfold spritePixel
  exact Bool.and_eq_true_iff.trans (and_congr_left' decide_eq_true_iff)

theorem spritePixel_cons_same (row : Byte) (rows : List Byte) (r0 x0 c : Nat) :
    spritePixel (row :: rows) r0 x0 r0 c = (decide (x0 ≤ c) && spriteBit row (c - x0)) := by
  simp [spritePixel]

theorem spritePixel_cons_below (row : Byte) (rows : List Byte) {r0 r : Nat} (x0 c : Nat) (h : r0 < r) :
    spritePixel (row :: rows) r0 x0 r c = spritePixel rows (r0 + 1) x0 r c := by
  obtain ⟨j, rfl⟩ : ∃ j, r = r0 + 1 + j := ⟨r - (r0 + 1), by omega⟩
  have e1 : r0 + 1 + j - r0 = j + 1 := by omega
  have e2 : r0 + 1 + j - (r0 + 1) = j := by omega
  have e3 : r0 ≤ r0 + 1 + j := by omega
  have e4 : r0 + 1 ≤ r0 + 1 + j := by omega
  simp only [spritePixel, e1, e2, e3, e4, List.getD_cons_succ]

theorem spritePixel_above (rows : List Byte) {r0 r : Nat} (x0 c : Nat) (h : r < r0) :
    spritePixel rows r0 x0 r c = false := by
  have : ¬ (r0 ≤ r ∧ x0 ≤ c) := by omega
  simp only [spritePixel, this, decide_false, Bool.false_and]

@[simp] theorem spritePixel_nil (r0 x0 r c : Nat) : spritePixel [] r0 x0 r c = false := by
  simp [spritePixel, spriteBit]

theorem drawColumns_eq (k : Canvas) (row : Byte) (r x0 : Nat) :
    k.drawBits row r x0 [0, 1, 2, 3, 4, 5, 6, 7] = k.drawBits row r x0 (List.range' 0 8) := rfl

/-- The row loop: each pixel of the display is XORed with the sprite pixel that falls on it; nothing wraps. -/
theorem drawRows_pixel (k : Canvas) (r0 x0 : Nat) (rows : List Byte) (r c : Nat) (hr : r < 32) (hc : c < 64) :
    Display.pixel (k.drawRows r0 x0 rows).disp r c =
      (Display.pixel k.disp r c ^^ spritePixel rows r0 x0 r c) := by
  induction rows generalizing k r0 with
  | nil => simp [Canvas.drawRows]
  | cons row rows ih =>
    rw [Canvas.drawRows]
    by_cases h32 : 32 ≤ r0
    · rw [if_pos h32, spritePixel_above _ _ _ (by omega)]; simp
    · rw [if_neg h32, ih, drawColumns_eq, drawBits_pixel _ _ _ _ _ _ _ _ (by omega)]
      rcases Nat.lt_trichotomy r r0 with h | h | h
      · have h1 : ¬ (r = r0 ∧ r0 < 32 ∧ x0 + 0 ≤ c ∧ c < 64) := by omega
        rw [spritePixel_above _ _ _ (show r < r0 + 1 by omega), spritePixel_above _ _ _ h]
        simp only [h1, decide_false, Bool.false_and]
        simp
      · subst h
        rw [spritePixel_above _ _ _ (show r < r + 1 by omega), spritePixel_cons_same]
        simp [hr, hc]
      · have h1 : ¬ (r = r0 ∧ r0 < 32 ∧ x0 + 0 ≤ c ∧ c < 64) := by omega
        rw [spritePixel_cons_below _ _ _ _ h]
        simp only [h1, decide_false, Bool.false_and]
        simp

/-- The row loop reports a collision exactly when the sprite covers a pixel that was 1, or one was reported before. -/
theorem drawRows_hit (k : Canvas) (r0 x0 : Nat) (rows : List Byte) :
    (k.drawRows r0 x0 rows).hit = true ↔
      k.hit = true ∨ ∃ r c, r < 32 ∧ c < 64 ∧ spritePixel rows r0 x0 r c = true ∧ Display.pixel k.disp r c = true := by
  induction rows generalizing k r0 with
  | nil => simp [Canvas.drawRows]
  | cons row rows ih =>
    rw [Canvas.drawRows]
    by_cases h32 : 32 ≤ r0
    · rw [if_pos h32]
      constructor
      · exact Or.inl
      · rintro (h | ⟨r, c, h1, h2, h3, -⟩)
        · exact h
        · rw [spritePixel_above _ _ _ (by omega)] at h3; cases h3
    · rw [if_neg h32, ih, drawColumns_eq, drawBits_hit _ _ _ _ _ _ (by omega)]
      have key : ∀ r c, r0 + 1 ≤ r → Display.pixel (k.drawBits row r0 x0 (List.range' 0 8)).disp r c
          = Display.pixel k.disp r c := by
        intro r c h
        have h1 : ¬ (r = r0 ∧ r0 < 32 ∧ x0 + 0 ≤ c ∧ c < 64) := by omega
        rw [drawBits_pixel _ _ _ _ _ _ _ _ (by omega)]
        simp only [h1, decide_false, Bool.false_and, Bool.xor_false]
      constructor
      · rintro ((h | ⟨c, -, h2, h3, h4, h5⟩) | ⟨r, c, h1, h2, h3, h4⟩)
        · exact .inl h
        · refine .inr ⟨r0, x0 + c, by omega, h3, ?_, h5⟩
          rw [spritePixel_cons_same]
          have : x0 + c - x0 = c := by omega
          simp [this, h4]
        · by_cases hr : r0 + 1 ≤ r
          · refine .inr ⟨r, c, h1, h2, ?_, ?_⟩
            · rw [spritePixel_cons_below _ _ _ _ (by omega)]; exact h3
            · rw [← key r c hr]; exact h4
          · rw [spritePixel_above _ _ _ (by omega)] at h3; cases h3
      · rintro (h | ⟨r, c, h1, h2, h3, h4⟩)
        · exact .inl (.inl h)
        · rcases Nat.lt_trichotomy r r0 with h | h | h
          · rw [spritePixel_above _ _ _ h] at h3; cases h3
          · subst h
            rw [spritePixel_cons_same] at h3
            simp only [Bool.and_eq_true, decide_eq_true_eq] at h3
            obtain ⟨h5, h6⟩ := h3
            have h7 : c - x0 < 8 := by
              simp only [spriteBit, Bool.and_eq_true, decide_eq_true_eq] at h6; exact h6.1
            have h8 : x0 + (c - x0) = c := by omega
            exact .inl (.inr ⟨c - x0, by omega, h7, by omega, h6, by rw [h8]; exact h4⟩)
          · refine .inr ⟨r, c, h1, h2, ?_, ?_⟩
            · rw [← spritePixel_cons_below row _ _ _ h]; exact h3
            · rw [key r c h]; exact h4

end Sys2Proof.Machine
end

