-- ==== Sys2Proof/Laws/Memory.lean ====
section
/-!
SUPPORT. Memory: a read after a write, and that every memory operation keeps the canonical form.
-/

namespace Sys2Proof.Machine

/-! ### Reading -/

theorem read_erase_same (m : Memory) (a : Nat) : (m.erase a).read a = memDefault a := by
  induction m with
  | nil => rfl
  | cons c rest ih =>
    by_cases h : c.1 = a <;> simp_all [Memory.erase, Memory.read]

theorem read_erase_ne (m : Memory) {a b : Nat} (h : b ≠ a) : (m.erase a).read b = m.read b := by
  induction m with
  | nil => rfl
  | cons c rest ih =>
    by_cases hc : c.1 = a
    · have hb : ¬ a = b := fun e => h e.symm
      simp_all [Memory.erase, Memory.read]
    · by_cases hb : c.1 = b <;> simp_all [Memory.erase, Memory.read]

theorem read_insert_same (m : Memory) (a : Nat) (b : Byte) (h : ∀ c ∈ m, c.1 ≠ a) : (m.insert (a, b)).read a = b := by
  induction m with
  | nil => simp [Memory.insert, Memory.read]
  | cons c rest ih =>
    simp only [Memory.insert]
    split
    · simp [Memory.read]
    · have := h c (by simp)
      simp [Memory.read, this, ih (fun d hd => h d (by simp [hd]))]

theorem read_insert_ne (m : Memory) {a k : Nat} (b : Byte) (h : k ≠ a) : (m.insert (a, b)).read k = m.read k := by
  have h' : ¬ a = k := fun e => h e.symm
  induction m with
  | nil => simp [Memory.insert, Memory.read, h']
  | cons c rest ih =>
    simp only [Memory.insert]
    split
    · simp [Memory.read, h']
    · simp [Memory.read, ih]

theorem erase_fst_ne (m : Memory) (a : Nat) : ∀ c ∈ m.erase a, c.1 ≠ a := by
  intro c hc
  simpa using (List.mem_filter.mp hc).2

/-- A byte of memory after a write: the byte written at its address, every other byte as before. -/
theorem read_write (m : Memory) (a k : Nat) (b : Byte) :
    (m.write a b).read k = if k = a ∧ a < Config.memSize then b else m.read k := by
  unfold Memory.write
  by_cases ha : a < Config.memSize
  · by_cases hk : k = a
    · subst hk
      by_cases hb : b = memDefault k
      · simp [ha, hb, read_erase_same]
      · simp [ha, hb, read_insert_same _ _ _ (erase_fst_ne m k)]
    · by_cases hb : b = memDefault a
      · simp [ha, hb, hk, read_erase_ne m hk]
      · simp [ha, hb, hk, read_insert_ne _ _ hk, read_erase_ne m hk]
  · simp [ha]

/-- A byte of memory after bytes were stored from `a` on: inside the range the stored byte, outside it as before. -/
theorem read_writeBytes (m : Memory) (a k : Nat) (bs : List Byte) (h : a + bs.length ≤ Config.memSize) :
    (m.writeBytes a bs).read k = if h : a ≤ k ∧ k < a + bs.length then bs[k - a]'(by omega) else m.read k := by
  induction bs generalizing m a with
  | nil =>
    have : ¬ (a ≤ k ∧ k < a + 0) := by omega
    simp only [List.length_nil, this, dite_false]; rfl
  | cons b bs ih =>
    simp only [List.length_cons] at h
    rw [Memory.writeBytes, ih _ _ (by omega), read_write]
    simp only [List.length_cons]
    by_cases h1 : a + 1 ≤ k ∧ k < a + 1 + bs.length
    · have h2 : a ≤ k ∧ k < a + (bs.length + 1) := by omega
      obtain ⟨j, rfl⟩ : ∃ j, k = a + 1 + j := ⟨k - (a + 1), by omega⟩
      have e : a + 1 + j - a = j + 1 := by omega
      simp only [h1, h2, e]
      simp
    · by_cases hk : k = a
      · subst hk
        have h2 : k < Config.memSize := by omega
        simp [h2]
      · have h2 : ¬ (a ≤ k ∧ k < a + (bs.length + 1)) := by omega
        rw [dif_neg h1, dif_neg h2, if_neg (by tauto)]

/-- Outside a stored range memory reads as before, wherever the range lies. -/
theorem read_writeBytes_outside (m : Memory) (a k : Nat) (bs : List Byte) (h : ¬(a ≤ k ∧ k < a + bs.length)) :
    (m.writeBytes a bs).read k = m.read k := by
  induction bs generalizing m a with
  | nil => rfl
  | cons b bs ih =>
    simp only [List.length_cons] at h
    rw [Memory.writeBytes, ih _ _ (by omega), read_write, if_neg (by omega)]

@[simp] theorem length_readBytes (m : Memory) (a n : Nat) : (m.readBytes a n).length = n := by
  induction n generalizing a with
  | zero => rfl
  | succ n ih => simp [Memory.readBytes, ih]

theorem getElem_readBytes (m : Memory) (a n k : Nat) (h : k < (m.readBytes a n).length) :
    (m.readBytes a n)[k] = m.read (a + k) := by
  induction n generalizing a k with
  | zero => simp [Memory.readBytes] at h
  | succ n ih =>
    cases k with
    | zero => rfl
    | succ k =>
      simp only [Memory.readBytes, List.getElem_cons_succ]
      rw [ih]; congr 1; omega

/-! ### The canonical form -/

theorem wf_cons {c : Host.Cell} {m : Memory} : Memory.wf (c :: m) = true ↔
    c.1 < Config.memSize ∧ c.2 ≠ memDefault c.1 ∧ (∀ d ∈ m, c.1 < d.1) ∧ Memory.wf m = true := by
  simp [Memory.wf, and_assoc]

theorem wf_erase (m : Memory) (a : Nat) (h : m.wf = true) : (m.erase a).wf = true := by
  induction m with
  | nil => rfl
  | cons c rest ih =>
    obtain ⟨h1, h2, h3, h4⟩ := wf_cons.mp h
    have ih := ih h4
    by_cases hc : c.1 = a
    · simpa [Memory.erase, hc] using ih
    · have e : Memory.erase (c :: rest) a = c :: Memory.erase rest a := by simp [Memory.erase, hc]
      rw [e]
      exact wf_cons.mpr ⟨h1, h2, fun d hd => h3 d (List.mem_filter.mp hd).1, ih⟩

theorem mem_insert {m : Memory} {c d : Host.Cell} : d ∈ m.insert c ↔ d = c ∨ d ∈ m := by
  induction m with
  | nil => simp [Memory.insert]
  | cons e rest ih =>
    simp only [Memory.insert]
    split
    · simp
    · simp only [List.mem_cons, ih]; tauto

theorem wf_insert (m : Memory) (c : Host.Cell) (h : m.wf = true) (ha : c.1 < Config.memSize)
    (hb : c.2 ≠ memDefault c.1) (hn : ∀ d ∈ m, d.1 ≠ c.1) : (m.insert c).wf = true := by
  induction m with
  | nil => exact wf_cons.mpr ⟨ha, hb, by simp, rfl⟩
  | cons d rest ih =>
    obtain ⟨h1, h2, h3, h4⟩ := wf_cons.mp h
    simp only [Memory.insert]
    split
    case isTrue hlt =>
      refine wf_cons.mpr ⟨ha, hb, ?_, h⟩
      intro e he
      rcases List.mem_cons.mp he with rfl | he
      · exact hlt
      · exact hlt.trans (h3 e he)
    case isFalse hge =>
      refine wf_cons.mpr ⟨h1, h2, ?_, ih h4 (fun e he => hn e (by simp [he]))⟩
      intro e he
      rcases mem_insert.mp he with rfl | he
      · have := hn d (by simp); omega
      · exact h3 e he

/-- A write keeps the canonical form. -/
theorem wf_write (m : Memory) (a : Nat) (b : Byte) (h : m.wf = true) : (m.write a b).wf = true := by
  unfold Memory.write
  split
  · split
    · exact wf_erase m a h
    · exact wf_insert _ _ (wf_erase m a h) ‹_› ‹_› (erase_fst_ne m a)
  · exact h

/-- Storing bytes keeps the canonical form. -/
theorem wf_writeBytes (m : Memory) (a : Nat) (bs : List Byte) (h : m.wf = true) : (m.writeBytes a bs).wf = true := by
  induction bs generalizing m a with
  | nil => exact h
  | cons b bs ih => exact ih _ _ (wf_write m a b h)

/-! ### Memory after a Reset with arguments (R6, R200) -/

/-- In the font table Reset leaves the byte of `FONT_TABLE`. -/
@[simp] theorem resetByte_font (font : Fin fontLen → Byte) (memInit : Nat → Byte) (k : Fin fontLen) :
    resetByte font memInit (fontBase + k.val) = font k := by
  have h : fontBase ≤ fontBase + k.val ∧ fontBase + k.val < fontBase + fontLen := by omega
  simp [resetByte, h]

/-- Outside the font table Reset leaves `MEM_INIT`. -/
theorem resetByte_outside (font : Fin fontLen → Byte) (memInit : Nat → Byte) {a : Nat}
    (h : ¬(fontBase ≤ a ∧ a < fontBase + fontLen)) : resetByte font memInit a = memInit a := dif_neg h

/-- The memory of a reset with arguments is in canonical form. -/
theorem wf_ofReset (font : Fin fontLen → Byte) (memInit : Nat → Byte) : (Memory.ofReset font memInit).wf = true := by
  unfold Memory.ofReset
  have writes_keep_wf : ∀ (l : List Nat) (m : Memory), m.wf = true →
      (l.foldl (fun m a => m.write a (resetByte font memInit a)) m).wf = true := by
    intro l
    induction l with
    | nil => exact fun _ h => h
    | cons a l ih => exact fun m h => ih _ (wf_write m a _ h)
  exact writes_keep_wf _ _ rfl

/-- The memory of a reset with arguments holds `resetByte` at every address. -/
theorem read_ofReset (font : Fin fontLen → Byte) (memInit : Nat → Byte) (k : Nat) (hk : k < Config.memSize) :
    (Memory.ofReset font memInit).read k = resetByte font memInit k := by
  unfold Memory.ofReset
  have read_after_writes : ∀ (l : List Nat) (m : Memory), (∀ a ∈ l, a < Config.memSize) →
      (l.foldl (fun m a => m.write a (resetByte font memInit a)) m).read k
        = if k ∈ l then resetByte font memInit k else m.read k := by
    intro l
    induction l with
    | nil => intro m _; rfl
    | cons a l ih =>
      intro m h
      rw [List.foldl_cons, ih _ (fun b hb => h b (by simp [hb])), read_write]
      have ha : a < Config.memSize := h a (by simp)
      by_cases hm : k ∈ l
      · simp [hm]
      · by_cases hka : k = a
        · subst hka; simp [ha]
        · simp [hm, hka]
  rw [read_after_writes _ _ (fun a ha => List.mem_range.mp ha), if_pos (List.mem_range.mpr hk)]

/-! ### The range test (R10, R63) -/

theorem inMemory_iff (a : Word) (n : Nat) : inMemory a n = true ↔ n = 0 ∨ a.toNat + n ≤ 4096 := by
  unfold inMemory Config.memSize
  exact decide_eq_true_iff

end Sys2Proof.Machine
end

