-- ==== Sys2Proof/Laws/Registers.lean ====
section
/-!
SUPPORT. The register file and the keypad: reading after writing, and the order of the two writes of R133.
-/

namespace Sys2Proof.Machine

theorem toNat_reg_inj {x y : Reg} : x.toNat = y.toNat ↔ x = y := BitVec.toNat_inj

theorem reg_setReg (s : State) (x r : Reg) (b : Byte) : (s.setReg x b).reg r = if x = r then b else s.reg r := by
  simp only [State.reg, State.setReg, Vector.getElem_set, toNat_reg_inj]

@[simp] theorem reg_setReg_same (s : State) (x : Reg) (b : Byte) : (s.setReg x b).reg x = b := by simp [reg_setReg]

theorem reg_setReg_ne (s : State) {x r : Reg} (b : Byte) (h : x ≠ r) : (s.setReg x b).reg r = s.reg r := by
  simp [reg_setReg, h]

theorem key_setKey (s : State) (k q : Key) (b : Bool) : (s.setKey k b).key q = if k = q then b else s.key q := by
  simp only [State.key, State.setKey, Vector.getElem_set, toNat_reg_inj]

/-- Two states with the same sixteen register values have the same register file. -/
theorem v_ext {s t : State} (h : ∀ r, s.reg r = t.reg r) : s.v = t.v := by
  apply Vector.ext
  intro k hk
  simpa [State.reg, Nat.mod_eq_of_lt hk] using h (BitVec.ofNat 4 k)

/-- Result first, flag second: V15 is the flag whatever `x` is (R133). -/
theorem reg_resultThenFlag (s : State) (x r : Reg) (b : Byte) (c : Bool) :
    (s.resultThenFlag x b c).reg r = if r = flagReg then flagByte c else if r = x then b else s.reg r := by
  simp only [State.resultThenFlag_eq, reg_setReg, eq_comm]

/-- Flag first, result second: V`x` is the result whatever `x` is (R133). -/
theorem reg_flagThenResult (s : State) (x r : Reg) (b : Byte) (c : Bool) :
    (s.flagThenResult x b c).reg r = if r = x then b else if r = flagReg then flagByte c else s.reg r := by
  simp only [State.flagThenResult_eq, reg_setReg, eq_comm]

/-! ### The bulk load (R145) -/

@[simp] theorem loadEach_nil (s : State) (a : Nat) : s.loadEach a [] = s := rfl

/-- Every field but the registers survives a bulk load. -/
theorem loadEach_rest (s : State) (a : Nat) (ks : List Nat) : { s.loadEach a ks with v := s.v } = s := by
  induction ks generalizing s with
  | nil => rfl
  | cons k ks ih =>
    have h := ih (s.setReg (BitVec.ofNat 4 k) (s.mem.read (a + k)))
    have h' : { s.loadEach a (k :: ks) with v := (s.setReg (BitVec.ofNat 4 k) (s.mem.read (a + k))).v }
        = s.setReg (BitVec.ofNat 4 k) (s.mem.read (a + k)) := h
    calc { s.loadEach a (k :: ks) with v := s.v }
        = { { s.loadEach a (k :: ks) with v := (s.setReg (BitVec.ofNat 4 k) (s.mem.read (a + k))).v } with v := s.v } := rfl
      _ = { s.setReg (BitVec.ofNat 4 k) (s.mem.read (a + k)) with v := s.v } := by rw [h']
      _ = s := rfl

/-- A bulk load of `V0` to `V(n-1)`: each takes its own byte, the registers above keep theirs. -/
theorem reg_loadEach_range (s : State) (a n : Nat) (hn : n ≤ 16) (r : Reg) :
    (s.loadEach a (List.range n)).reg r = if r.toNat < n then s.mem.read (a + r.toNat) else s.reg r := by
  have gen : ∀ (ks : List Nat) (s' : State), (∀ k ∈ ks, k < 16) → ks.Nodup →
      (s'.loadEach a ks).reg r = if r.toNat ∈ ks then s'.mem.read (a + r.toNat) else s'.reg r := by
    intro ks
    induction ks with
    | nil => intro s' _ _; simp
    | cons k ks ih =>
      intro s' hk nd
      have hk16 : k < 16 := hk k (by simp)
      rw [State.loadEach, ih _ (fun j hj => hk j (by simp [hj])) (List.nodup_cons.mp nd).2]
      have e : (BitVec.ofNat 4 k = r) ↔ r.toNat = k := by
        rw [← toNat_reg_inj]; simp [Nat.mod_eq_of_lt hk16]; exact eq_comm
      have nk : k ∉ ks := (List.nodup_cons.mp nd).1
      by_cases h : r.toNat = k
      · subst h; simp [nk]
      · simp [reg_setReg, e, h]
  rw [gen _ _ (fun k hk => by have := List.mem_range.mp hk; omega) List.nodup_range]
  simp

end Sys2Proof.Machine
end

