-- ==== Sys2Proof/Laws/Ops.lean ====
section
/-!
SUPPORT. One lemma per shared operation: all that it can do, for later proofs to cite instead of unfolding it.
-/

namespace Sys2Proof.Machine

/-! ### Operand forms -/

@[simp] theorem addrOf_toNat (nnn : Addr12) : (addrOf nnn).toNat = nnn.toNat := by
  have h := nnn.isLt
  simp only [addrOf, BitVec.toNat_setWidth]; omega

@[simp] theorem wordOf_toNat (b : Byte) : (wordOf b).toNat = b.toNat := by
  have h := b.isLt
  simp only [wordOf, BitVec.toNat_setWidth]; omega

@[simp] theorem glyphAddr_toNat (b : Byte) : (glyphAddr b).toNat = 0x050 + 5 * b.toNat := by
  have h := b.isLt
  simp only [glyphAddr, fontBase, BitVec.toNat_ofNat]; omega

theorem npc_toNat (s : State) : s.npc.toNat = (s.pc.toNat + 2) % 65536 := by
  simp [State.npc, BitVec.toNat_add]

@[simp] theorem length_regsUpTo (s : State) (x : Reg) : (s.regsUpTo x).length = x.toNat + 1 := by
  simp [State.regsUpTo, transferCount]

/-- The k-th byte of a bulk store is `V[k]`. -/
theorem getElem_regsUpTo (s : State) (x : Reg) (k : Nat) (h : k < (s.regsUpTo x).length) :
    (s.regsUpTo x)[k] = s.reg (BitVec.ofNat 4 k) := by
  simp [State.regsUpTo]

@[simp] theorem length_decimalDigits (b : Byte) : (decimalDigits b).length = 3 := rfl

@[simp] theorem length_spriteBytes (s : State) (n : Rows) : (s.spriteBytes n).length = n.toNat := by
  simp [State.spriteBytes]

/-! ### Results and flags -/

theorem addResult_eq (a b : Byte) : addResult a b = a + b := by
  apply BitVec.eq_of_toNat_eq
  simp [addResult, BitVec.toNat_add]

theorem addResult_toNat (a b : Byte) : (addResult a b).toNat = (a.toNat + b.toNat) % 256 := by
  simp [addResult]

theorem subResult_toInt (a b : Byte) : ((subResult a b).toNat : Int) = ((a.toNat : Int) - b.toNat) % 256 := by
  have h : (0 : Int) ≤ ((a.toNat : Int) - b.toNat) % 256 := Int.emod_nonneg _ (by decide)
  simp only [subResult, BitVec.toNat_ofInt]
  omega

theorem subResult_eq (a b : Byte) : subResult a b = a - b := by
  apply BitVec.eq_of_toNat_eq
  have h := subResult_toInt a b
  have ha := a.isLt
  have hb := b.isLt
  rw [BitVec.toNat_sub]
  omega

theorem shrResult_toNat (b : Byte) : (shrResult b).toNat = b.toNat / 2 := by
  simp [shrResult, BitVec.toNat_ushiftRight, Nat.shiftRight_eq_div_pow]

theorem shlResult_toNat (b : Byte) : (shlResult b).toNat = 2 * b.toNat % 256 := by
  simp [shlResult, BitVec.toNat_shiftLeft, Nat.shiftLeft_eq, Nat.mul_comm]

theorem shrOut_eq (b : Byte) : shrOut b = decide (b.toNat % 2 = 1) := by
  simp [shrOut, BitVec.getLsbD, Nat.testBit_zero]

theorem shlOut_eq (b : Byte) : shlOut b = decide (128 ≤ b.toNat) := by
  have h := b.isLt
  have e : b.toNat / 128 % 2 = b.toNat / 128 := by omega
  simp only [shlOut, BitVec.getLsbD, Nat.testBit_eq_decide_div_mod_eq]
  norm_num [e]
  omega

theorem countDown_toNat (b : Byte) : (countDown b).toNat = b.toNat - 1 := by
  unfold countDown
  split
  · subst_vars; rfl
  · rename_i h
    have hb := b.isLt
    have h0 : b.toNat ≠ 0 := fun e => h (BitVec.eq_of_toNat_eq (by simpa using e))
    rw [BitVec.toNat_sub]; simp; omega

/-! ### The call stack -/

theorem push_of_room (s : State) (a : Word) (h : s.sp.val < 16) :
    s.push a = { s with stack := s.stack.set s.sp.val a h, sp := ⟨s.sp.val + 1, by omega⟩ } := by
  simp only [State.push, h, dite_true]

theorem top?_of_pos (s : State) (h : 0 < s.sp.val) : s.top? = some (s.stack[s.sp.val - 1]'(by omega)) := by
  simp only [State.top?, h, dite_true]

theorem top?_of_empty (s : State) (h : s.sp.val = 0) : s.top? = none := by
  simp [State.top?, h]

/-! ### The keypad -/

theorem keyNamed?_of_le {b : Byte} (h : b.toNat ≤ 15) : keyNamed? b = some (BitVec.ofNat 4 b.toNat) := by
  rw [keyNamed?, if_pos h]
  congr 1

theorem keyNamed?_of_gt {b : Byte} (h : 15 < b.toNat) : keyNamed? b = none := by
  rw [keyNamed?, if_neg (by omega)]

/-! ### Outputs and the end of a run -/

theorem soundActive_iff (s : State) : soundActive s = true ↔ 0 < s.st.toNat := decide_eq_true_iff

theorem hasEnded_iff (s : State) : hasEnded s = true ↔ s.es = .haltedError ∨ s.es = .stopped := decide_eq_true_iff

/-! ### Fetch -/

/-- A fetch succeeds exactly when both bytes are in memory, and gives them high byte first. -/
theorem fetch_eq_some (s : State) (op : Word) : s.fetch = some op ↔
    s.pc.toNat ≤ 0xFFE ∧ op = wordOfBytes (s.mem.read s.pc.toNat) (s.mem.read (s.pc.toNat + 1)) := by
  unfold State.fetch
  by_cases h : s.pc.toNat ≤ 0xFFE
  · have e : inMemory s.pc 2 = true := (inMemory_iff _ _).mpr (by omega)
    simp [e, h, eq_comm]
  · have e : ¬ inMemory s.pc 2 = true := fun c => by have := (inMemory_iff _ _).mp c; omega
    simp [e, h]

theorem fetch_eq_none (s : State) : s.fetch = none ↔ 0xFFE < s.pc.toNat := by
  unfold State.fetch
  by_cases h : s.pc.toNat ≤ 0xFFE
  · have e : inMemory s.pc 2 = true := (inMemory_iff _ _).mpr (by omega)
    simp [e]; omega
  · have e : ¬ inMemory s.pc 2 = true := fun c => by have := (inMemory_iff _ _).mp c; omega
    simp [e]; omega

/-! ### Sprite draw -/

/-- The display after a sprite draw, pixel by pixel: each is XORed with the sprite pixel that falls on it. -/
theorem drawSprite_pixel (s : State) (x y : Reg) (n : Rows) (r c : Nat) (hr : r < 32) (hc : c < 64) :
    Display.pixel (s.drawSprite x y n).disp r c =
      (Display.pixel s.disp r c ^^ spritePixel (s.spriteBytes n) (startRow (s.reg y)) (startCol (s.reg x)) r c) :=
  drawRows_pixel _ _ _ _ _ _ hr hc

/-- A sprite draw collides exactly when the sprite covers a pixel that was 1. -/
theorem drawSprite_hit (s : State) (x y : Reg) (n : Rows) : (s.drawSprite x y n).hit = true ↔
    ∃ r c, r < 32 ∧ c < 64 ∧ spritePixel (s.spriteBytes n) (startRow (s.reg y)) (startCol (s.reg x)) r c = true ∧
      Display.pixel s.disp r c = true := by
  simp [State.drawSprite, drawRows_hit]

end Sys2Proof.Machine
end

