-- ==== Sys2Proof/Laws/PerInstr.lean ====
section
/-!
SUPPORT. One lemma per instruction: the word the encoder gives it is selected by its own row of the opcode table (R75).
-/

namespace Sys2Proof.Laws.EncodesToRow

/-- "A word `op` is the instruction of a row when `op AND mask = match`" (R75): so is the encoder's word. -/
def Statement (i : Instr) : Prop := i.row.selects (encodeWord i) = true

theorem cls : Statement .cls := decide_eq_true rfl
theorem ret : Statement .ret := decide_eq_true rfl
theorem jp (nnn : Addr12) : Statement (.jp nnn) := decide_eq_true (wordA_major _ nnn)
theorem call (nnn : Addr12) : Statement (.call nnn) := decide_eq_true (wordA_major _ nnn)
theorem seImm (x : Reg) (kk : Byte) : Statement (.seImm x kk) := decide_eq_true (wordRI_major _ x kk)
theorem sneImm (x : Reg) (kk : Byte) : Statement (.sneImm x kk) := decide_eq_true (wordRI_major _ x kk)
theorem seReg (x y : Reg) : Statement (.seReg x y) := decide_eq_true (wordRRN_majorN _ x y _)
theorem ldImm (x : Reg) (kk : Byte) : Statement (.ldImm x kk) := decide_eq_true (wordRI_major _ x kk)
theorem addImm (x : Reg) (kk : Byte) : Statement (.addImm x kk) := decide_eq_true (wordRI_major _ x kk)
theorem ldReg (x y : Reg) : Statement (.ldReg x y) := decide_eq_true (wordRRN_majorN _ x y _)
theorem orReg (x y : Reg) : Statement (.orReg x y) := decide_eq_true (wordRRN_majorN _ x y _)
theorem andReg (x y : Reg) : Statement (.andReg x y) := decide_eq_true (wordRRN_majorN _ x y _)
theorem xorReg (x y : Reg) : Statement (.xorReg x y) := decide_eq_true (wordRRN_majorN _ x y _)
theorem addReg (x y : Reg) : Statement (.addReg x y) := decide_eq_true (wordRRN_majorN _ x y _)
theorem subReg (x y : Reg) : Statement (.subReg x y) := decide_eq_true (wordRRN_majorN _ x y _)
theorem shrReg (x y : Reg) : Statement (.shrReg x y) := decide_eq_true (wordRRN_majorN _ x y _)
theorem subnReg (x y : Reg) : Statement (.subnReg x y) := decide_eq_true (wordRRN_majorN _ x y _)
theorem shlReg (x y : Reg) : Statement (.shlReg x y) := decide_eq_true (wordRRN_majorN _ x y _)
theorem sneReg (x y : Reg) : Statement (.sneReg x y) := decide_eq_true (wordRRN_majorN _ x y _)
theorem ldI (nnn : Addr12) : Statement (.ldI nnn) := decide_eq_true (wordA_major _ nnn)
theorem jpV0 (nnn : Addr12) : Statement (.jpV0 nnn) := decide_eq_true (wordA_major _ nnn)
theorem rnd (x : Reg) (kk : Byte) : Statement (.rnd x kk) := decide_eq_true (wordRI_major _ x kk)
theorem drw (x y : Reg) (n : Rows) : Statement (.drw x y n) := decide_eq_true (wordRRN_major _ x y n)
theorem skp (x : Reg) : Statement (.skp x) := decide_eq_true (wordRI_majorKk _ x _)
theorem sknp (x : Reg) : Statement (.sknp x) := decide_eq_true (wordRI_majorKk _ x _)
theorem ldVxDT (x : Reg) : Statement (.ldVxDT x) := decide_eq_true (wordRI_majorKk _ x _)
theorem ldVxK (x : Reg) : Statement (.ldVxK x) := decide_eq_true (wordRI_majorKk _ x _)
theorem ldDTVx (x : Reg) : Statement (.ldDTVx x) := decide_eq_true (wordRI_majorKk _ x _)
theorem ldSTVx (x : Reg) : Statement (.ldSTVx x) := decide_eq_true (wordRI_majorKk _ x _)
theorem addI (x : Reg) : Statement (.addI x) := decide_eq_true (wordRI_majorKk _ x _)
theorem ldF (x : Reg) : Statement (.ldF x) := decide_eq_true (wordRI_majorKk _ x _)
theorem ldB (x : Reg) : Statement (.ldB x) := decide_eq_true (wordRI_majorKk _ x _)
theorem storeRegs (x : Reg) : Statement (.storeRegs x) := decide_eq_true (wordRI_majorKk _ x _)
theorem loadRegs (x : Reg) : Statement (.loadRegs x) := decide_eq_true (wordRI_majorKk _ x _)

end Sys2Proof.Laws.EncodesToRow
end

