-- ==== Sys2Proof/Tests/Slice0.lean ====
section
/-!
SUPPORT. Tests: the well-formedness smoke test, decoding of words written out from R75, single steps with the expected values of
spec/95_test_vectors.md (the vector's id stands in each comment), and for each statement with hypotheses a witness that meets them.
-/

namespace Sys2Proof.Tests

open Sys2Proof.Machine

set_option Elab.async false

/-! ### Well-formedness smoke test: an ill-formed term for each check -/

theorem test_wf_refuses_register_16 : Operand.fits ⟨16, 4⟩ = false := by decide
theorem test_wf_refuses_immediate_256 : Operand.fits ⟨256, 8⟩ = false := by decide
theorem test_wf_refuses_address_4096 : Operand.fits ⟨4096, 12⟩ = false := by decide
theorem test_wf_accepts_the_largest : (Instr.drw 15 15 15).wellFormed = true ∧ (Instr.jp 0xFFF).wellFormed = true := by decide
theorem test_wf_refuses_image_3585 : imageFits (List.replicate 3585 0) = false := by
  unfold imageFits; rw [List.length_replicate]; rfl
theorem test_wf_accepts_image_3584 : imageFits (List.replicate 3584 0) = true := by
  unfold imageFits; rw [List.length_replicate]; rfl
theorem test_memory_wf_refuses_unsorted : Memory.wf [(0x301, 1), (0x300, 1)] = false := by decide
theorem test_memory_wf_refuses_default : Memory.wf [(0x300, 0)] = false ∧ Memory.wf [(0x050, 0xF0)] = false := by decide
theorem test_memory_wf_refuses_outside : Memory.wf [(0x1000, 1)] = false := by decide

/-! ### Decoding: one word per row, bit by bit from the encodings of R75 -/

theorem test_decode_control :
    [decodeWord 0b0000000011101110, decodeWord 0b0001101010111100, decodeWord 0b0010001100000000, decodeWord 0b1011001100000000,
      decodeWord 0b0011001100101010, decodeWord 0b0100001100101010, decodeWord 0b0101000100100000, decodeWord 0b1001000100100000] =
    [some .ret, some (.jp 0xABC), some (.call 0x300), some (.jpV0 0x300), some (.seImm 3 0x2A), some (.sneImm 3 0x2A),
      some (.seReg 1 2), some (.sneReg 1 2)] := by decide

theorem test_decode_alu :
    [decodeWord 0b0110101000101011, decodeWord 0b0111101000001010, decodeWord 0b1000000100100000, decodeWord 0b1000000100100001,
      decodeWord 0b1000000100100010, decodeWord 0b1000000100100011, decodeWord 0b1000000100100100, decodeWord 0b1000000100100101,
      decodeWord 0b1000000100100110, decodeWord 0b1000000100100111, decodeWord 0b1000000100101110, decodeWord 0b1100001100001111] =
    [some (.ldImm 0xA 0x2B), some (.addImm 0xA 0x0A), some (.ldReg 1 2), some (.orReg 1 2), some (.andReg 1 2),
      some (.xorReg 1 2), some (.addReg 1 2), some (.subReg 1 2), some (.shrReg 1 2), some (.subnReg 1 2), some (.shlReg 1 2),
      some (.rnd 3 0x0F)] := by decide

theorem test_decode_index :
    [decodeWord 0b1010001011110000, decodeWord 0b1111001000011110, decodeWord 0b1111010000101001, decodeWord 0b1111000100110011,
      decodeWord 0b1111001001010101, decodeWord 0b1111000101100101] =
    [some (.ldI 0x2F0), some (.addI 2), some (.ldF 4), some (.ldB 1), some (.storeRegs 2), some (.loadRegs 1)] := by decide

theorem test_decode_display : [decodeWord 0b0000000011100000, decodeWord 0b1101000100100101] =
    [some .cls, some (.drw 1 2 5)] := by decide

theorem test_decode_keypad :
    [decodeWord 0b1110010110011110, decodeWord 0b1110010110100001, decodeWord 0b1111001000000111, decodeWord 0b1111001100001010,
      decodeWord 0b1111001000010101, decodeWord 0b1111001000011000] =
    [some (.skp 5), some (.sknp 5), some (.ldVxDT 2), some (.ldVxK 3), some (.ldDTVx 2), some (.ldSTVx 2)] := by decide

/-- T-FDE-1 to T-FDE-8: words of no row. -/
theorem test_decode_unknown :
    ([0x0000, 0x0123, 0x00E1, 0x00EF, 0x00FF, 0x5121, 0x9121, 0x8128, 0x812F, 0xE09F, 0xE0A0, 0xF000, 0xF0FF, 0xF075, 0xF085] :
      List Word).all (fun op => decodeWord op == none) = true := by decide

theorem test_decode_bytes_high_first : decode [0x12, 0x34, 0x56] = .ok (.jp 0x234, [0x56]) := by rfl
theorem test_decode_truncated : decode [0x12] = .error .truncated := by rfl
theorem test_decode_table_word : decodeTableWord 16 0xD125 = some (.drw 1 2 5) := by decide

/-! ### Single steps: the vectors of 95_test_vectors.md -/

/-- A field of the state one Step of a word leads to. -/
def after {α : Type} (s : State) (op : Word) (f : State → α) : Option α :=
  match step (s.placeWord op) with
  | .next t => some (f t)
  | _ => none

/-- The reset state with some registers set. -/
def withRegs (l : List (Reg × Byte)) : State := l.foldl (fun s p => s.setReg p.1 p.2) State.reset

/-- The reset state with some registers, I and some bytes at I set. -/
def withMem (l : List (Reg × Byte)) (a : Word) (bs : List Byte) : State := ((withRegs l).setI a).storeBytes a.toNat bs

/-- ERR, ES and pc: what fault entry leaves. -/
def faultView (s : State) : ErrorCause × ExecState × Word := (s.err, s.es, s.pc)

-- T-CF-1, T-CF-9
theorem test_jp : after State.reset 0x1ABC (·.pc) = some 0x0ABC := by decide +kernel
theorem test_jpV0_uses_V0 : after (withRegs [(0, 4), (3, 0x99)]) 0xB300 (·.pc) = some 0x0304 := by decide +kernel
-- T-CF-10: the sum is not reduced to 12 bits
theorem test_jpV0_exceeds_memory : after (withRegs [(0, 0xFF)]) 0xBFFF (·.pc) = some 0x10FE := by decide +kernel
-- T-CF-5, T-CF-6
theorem test_call_sixteenth : after { State.reset with sp := 15 } 0x2ABC (fun t => (t.stack[15], t.sp, t.pc)) =
    some (0x0202, 16, 0x0ABC) := by decide +kernel
theorem test_call_seventeenth : after { State.reset with sp := 16 } 0x2ABC (fun t => (faultView t, t.sp)) =
    some ((.stackOverflow, .haltedError, 0x200), 16) := by decide +kernel
-- T-CF-8, T-CF-7
theorem test_ret : after { State.reset with sp := 2, stack := State.reset.stack.set 1 0x0456 } 0x00EE
    (fun t => (t.pc, t.sp, t.stack[1])) = some (0x0456, 1, 0x0456) := by decide +kernel
theorem test_ret_empty : after State.reset 0x00EE faultView = some (.stackUnderflow, .haltedError, 0x200) := by decide +kernel
-- T-CF-11, T-CF-12, T-CF-15, T-CF-16
theorem test_seImm : after (withRegs [(3, 0x2A)]) 0x332A (·.pc) = some 0x204 ∧
    after (withRegs [(3, 0x2B)]) 0x332A (·.pc) = some 0x202 := by decide +kernel
theorem test_sneImm : after (withRegs [(3, 0x2A)]) 0x432A (·.pc) = some 0x202 ∧
    after State.reset 0x432A (·.pc) = some 0x204 := by decide +kernel
-- T-CF-18, T-CF-19, T-CF-21, T-CF-23
theorem test_seReg : after (withRegs [(1, 7), (2, 7)]) 0x5120 (·.pc) = some 0x204 ∧
    after (withRegs [(1, 7), (2, 8)]) 0x5120 (·.pc) = some 0x202 := by decide +kernel
theorem test_sneReg : after (withRegs [(1, 7), (2, 8)]) 0x9120 (·.pc) = some 0x204 ∧
    after (withRegs [(7, 9)]) 0x9770 (·.pc) = some 0x202 := by decide +kernel

/-- The named register and V15. -/
def regAndFlag (x : Reg) (s : State) : Byte × Byte := (s.reg x, s.reg 15)

-- T-ALU-1, T-ALU-2, T-ALU-4, T-ALU-5
theorem test_ldImm : after State.reset 0x6AFF (·.reg 10) = some 0xFF := by decide +kernel
theorem test_addImm : after (withRegs [(10, 0xFA), (15, 7)]) 0x7A0A (regAndFlag 10) = some (4, 7) ∧
    after (withRegs [(15, 0xFF)]) 0x7F02 (·.reg 15) = some 1 := by decide +kernel
theorem test_ldReg : after (withRegs [(1, 1), (2, 0x77), (15, 1)]) 0x8120 (regAndFlag 1) = some (0x77, 1) := by decide +kernel
-- T-ALU-6, T-VF-18; T-ALU-7; T-ALU-8
theorem test_orReg : after (withRegs [(1, 0x0F), (2, 0xF0), (15, 1)]) 0x8121 (regAndFlag 1) = some (0xFF, 0) ∧
    after (withRegs [(15, 0x0F), (1, 0xF0)]) 0x8F11 (·.reg 15) = some 0 := by decide +kernel
theorem test_andReg : after (withRegs [(1, 0x3C), (2, 0x0F), (15, 1)]) 0x8122 (regAndFlag 1) = some (0x0C, 0) := by decide +kernel
theorem test_xorReg : after (withRegs [(1, 0xFF), (2, 0x0F), (15, 9)]) 0x8123 (regAndFlag 1) = some (0xF0, 0) := by decide +kernel
-- S3, T-ALU-11; T-VF-1
theorem test_addReg : after (withRegs [(1, 200), (2, 100)]) 0x8124 (regAndFlag 1) = some (44, 1) ∧
    after (withRegs [(1, 0xFF), (15, 1)]) 0x8124 (regAndFlag 1) = some (0xFF, 0) := by decide +kernel
theorem test_addReg_into_flag : after (withRegs [(15, 200), (1, 100)]) 0x8F14 (·.reg 15) = some 1 := by decide +kernel
-- S4; T-VF-6, T-VF-7
theorem test_subReg : after (withRegs [(1, 5), (2, 10)]) 0x8125 (regAndFlag 1) = some (251, 0) ∧
    after (withRegs [(1, 7), (2, 7)]) 0x8125 (regAndFlag 1) = some (0, 1) := by decide +kernel
theorem test_subReg_with_flag : after (withRegs [(15, 3), (1, 10)]) 0x8F15 (·.reg 15) = some 0xF9 ∧
    after (withRegs [(1, 5), (15, 10)]) 0x81F5 (regAndFlag 1) = some (0xFB, 0) := by decide +kernel
-- S5; T-VF-11, T-VF-9
theorem test_shrReg : after (withRegs [(1, 0xEE), (2, 3)]) 0x8126 (regAndFlag 1) = some (1, 1) := by decide +kernel
theorem test_shrReg_with_flag : after (withRegs [(1, 0xEE), (15, 3)]) 0x81F6 (regAndFlag 1) = some (1, 1) ∧
    after (withRegs [(15, 9), (1, 2)]) 0x8F16 (·.reg 15) = some 1 := by decide +kernel
-- T-ALU-18, T-ALU-19; T-VF-14
theorem test_subnReg : after (withRegs [(1, 5), (2, 10)]) 0x8127 (regAndFlag 1) = some (5, 1) ∧
    after (withRegs [(1, 10), (2, 5)]) 0x8127 (regAndFlag 1) = some (0xFB, 0) := by decide +kernel
theorem test_subnReg_with_flag : after (withRegs [(1, 5), (15, 10)]) 0x81F7 (regAndFlag 1) = some (5, 1) := by decide +kernel
-- T-ALU-21, T-VF-16
theorem test_shlReg : after (withRegs [(1, 0xEE), (2, 0x81)]) 0x812E (regAndFlag 1) = some (2, 1) ∧
    after (withRegs [(15, 0xC1)]) 0x81FE (regAndFlag 1) = some (0x82, 1) := by decide +kernel
-- T-ALU-25
theorem test_rnd_masks_everything : (exec (.rnd 3 0) (withRegs [(3, 0x55)])) =
    .next ((withRegs [(3, 0x55)]).setReg 3 0).nextDraw.advance := by
  simp [exec, execRnd]

-- T-MEM-1; T-MEM-3, T-MEM-4; T-MEM-6, T-MEM-9
theorem test_ldI : after State.reset 0xAFFF (·.i) = some 0x0FFF := by decide +kernel
theorem test_addI : after ((withRegs [(1, 2)]).setI 0x0FFE) 0xF11E (·.i) = some 0x1000 ∧
    after ((withRegs [(1, 2)]).setI 0xFFFF) 0xF11E (·.i) = some 0x0001 := by decide +kernel
theorem test_ldF : after (withRegs [(1, 0x0A)]) 0xF129 (·.i) = some 0x0082 ∧
    after (withRegs [(1, 0xFF)]) 0xF129 (·.i) = some 0x054B := by decide +kernel
-- T-MEM-13, T-MEM-10; T-MEM-15
theorem test_ldB : after ((withRegs [(1, 255)]).setI 0x300) 0xF133 (fun t => (t.mem.readBytes 0x300 3, t.i)) =
    some ([2, 5, 5], 0x300) ∧
    after (withMem [(1, 0)] 0x300 [9, 9, 9]) 0xF133 (fun t => t.mem.readBytes 0x300 3) = some [0, 0, 0] := by decide +kernel
theorem test_ldB_out_of_range : after ((withRegs [(1, 100)]).setI 0xFFE) 0xF133 (fun t => (faultView t, t.mem.readBytes 0xFFE 2)) =
    some ((.addressRange, .haltedError, 0x200), [0, 0]) := by decide +kernel
-- T-MEM-17; T-MEM-20, T-MEM-21
theorem test_storeRegs : after ((withRegs [(0, 1), (1, 2), (2, 3), (3, 4)]).setI 0x300) 0xF255
    (fun t => (t.mem.readBytes 0x300 4, t.i)) = some ([1, 2, 3, 0], 0x303) := by decide +kernel
theorem test_storeRegs_edge : after ((withRegs [(0, 0x77)]).setI 0xFFF) 0xF055 (fun t => (t.mem.read 0xFFF, t.i)) =
    some (0x77, 0x1000) ∧
    after ((withRegs [(0, 0x77)]).setI 0x1000) 0xF055 faultView = some (.addressRange, .haltedError, 0x200) := by decide +kernel
-- T-MEM-23; T-MEM-24, T-MEM-26
theorem test_loadRegs : after (State.reset.setI 0x050) 0xF465 (fun t => ([t.reg 0, t.reg 1, t.reg 4, t.reg 5], t.i)) =
    some ([0xF0, 0x90, 0xF0, 0], 0x055) := by decide +kernel
theorem test_loadRegs_edge : after (withMem [] 0xFF0 [1, 2, 3, 4, 5, 6, 7, 8, 9, 10, 11, 12, 13, 14, 15, 16]) 0xFF65
    (fun t => (t.reg 0, t.reg 15, t.i)) = some (1, 16, 0x1000) ∧
    after (State.reset.setI 0xFFF) 0xF165 faultView = some (.addressRange, .haltedError, 0x200) := by decide +kernel

/-- A display with the listed pixels (row, column) set. -/
def pixels (l : List (Nat × Nat)) : Display := l.foldl (fun d p => Display.flip d p.1 p.2) Display.clear

-- T-DRW-1
theorem test_cls : after ((withRegs [(15, 1)]).setDisp (pixels [(0, 0), (31, 63)])) 0x00E0
    (fun t => (t.disp.pixel 0 0, t.disp.pixel 31 63, t.reg 15)) = some (false, false, 1) := by decide +kernel
-- T-DRW-7, T-DRW-9: clipping at the corner; collision
theorem test_drw : after (withMem [(1, 255), (2, 255)] 0x300 [0x81]) 0xD121 (fun t => (decide (t.disp = pixels [(31, 63)]), t.reg 15)) =
    some (true, 0) ∧
    after ((withMem [] 0x300 [0xC0]).setDisp (pixels [(0, 0)])) 0xD011 (fun t => (decide (t.disp = pixels [(0, 1)]), t.reg 15)) =
    some (true, 1) := by decide +kernel
-- T-DRW-15, T-DRW-13: V15 as the column; the range test covers clipped rows
theorem test_drw_corners : after (withMem [(15, 5)] 0x300 [0x80]) 0xDF01 (fun t => (decide (t.disp = pixels [(0, 5)]), t.reg 15)) =
    some (true, 0) ∧
    after ((withRegs [(2, 31), (15, 1)]).setI 0xFFE) 0xD123 faultView = some (.addressRange, .haltedError, 0x200) := by decide +kernel

-- T-KEY-1, T-KEY-2, T-KEY-3; T-KEY-5, T-KEY-6, T-KEY-7
theorem test_skp : after ((withRegs [(5, 10)]).setKey 10 true) 0xE59E (·.pc) = some 0x204 ∧
    after (withRegs [(5, 10)]) 0xE59E (·.pc) = some 0x202 := by decide +kernel
theorem test_skp_not_masked : after ((withRegs [(5, 0x10)]).setKey 0 true) 0xE59E faultView =
    some (.keyIndexRange, .haltedError, 0x200) := by decide +kernel
theorem test_sknp : after ((withRegs [(5, 10)]).setKey 10 true) 0xE5A1 (·.pc) = some 0x202 ∧
    after (withRegs [(5, 10)]) 0xE5A1 (·.pc) = some 0x204 := by decide +kernel
theorem test_sknp_not_masked : after ((withRegs [(5, 0x1A)]).setKey 10 true) 0xE5A1 faultView =
    some (.keyIndexRange, .haltedError, 0x200) := by decide +kernel
-- T-KEY-8, T-KEY-9, T-KEY-10, T-KEY-13
theorem test_ldVxDT : after (State.reset.setDT 0x3C) 0xF207 (fun t => (t.reg 2, t.dt)) = some (0x3C, 0x3C) := by decide +kernel
theorem test_ldDTVx : after (withRegs [(2, 0x3C)]) 0xF215 (·.dt) = some 0x3C := by decide +kernel
theorem test_ldSTVx : after (withRegs [(2, 5)]) 0xF218 (fun t => (t.st, soundActive t)) = some (5, true) := by decide +kernel
theorem test_ldVxK : after State.reset 0xFF0A (fun t => (t.waitReg, t.es, t.pc, t.reg 15)) =
    some (15, .awaitingKey, 0x202, 0) := by decide +kernel

/-! ### Step gating, fetch, events -/

-- T-FDE-9, T-FDE-10
theorem test_fetch_last_word : after { State.reset with pc := 0xFFE } 0x6001 (fun t => (t.reg 0, t.pc)) = some (1, 0x1000) := by
  decide +kernel
theorem test_fetch_out_of_range : (match step { State.reset with pc := 0xFFF } with
    | .next t => some (faultView t)
    | _ => none) = some (.addressRange, .haltedError, 0xFFF) := by decide +kernel
-- T-RST-2: the first Step of an empty load executes the unknown word 0x0000
theorem test_first_step_of_empty_memory : (match step State.reset with
    | .next t => decide (t = { State.reset with pc := 0x202 })
    | _ => false) = true := by decide +kernel
-- T-EV-1, T-EV-2, T-EV-6
theorem test_tick : ((tick ((State.reset.setDT 2).setST 1)).dt, (tick ((State.reset.setDT 2).setST 1)).st,
    (tick State.reset).dt, (tick ((State.reset.setDT 5).setES .stopped)).dt) = (1, 0, 0, 5) := by decide +kernel
-- T-EV-10, T-EV-11, T-EV-16
theorem test_keyUp_ends_wait : (let t := keyUp 7 ((State.reset.awaitKey 3).setKey 7 true)
    (t.reg 3, t.es, t.key 7)) = (7, ExecState.running, false) := by decide +kernel
theorem test_keyUp_of_a_key_not_down : keyUp 7 (State.reset.awaitKey 3) = State.reset.awaitKey 3 := by decide +kernel
theorem test_quit_then_keyUp : (let t := keyUp 7 (quit ((State.reset.awaitKey 3).setKey 7 true))
    (t.reg 3, t.es, t.key 7)) = (0, ExecState.stopped, true) := by decide +kernel
-- T-RST-3
theorem test_load_is_big_endian : (match launch (some [0x12, 0x34]) with
    | .next s => (match step s with | .next t => some t.pc | _ => none)
    | _ => none) = some 0x234 := by decide +kernel
-- R58: the last glyph byte, and the cells beside the font
theorem test_font_edges : ([0x04F, 0x050, 0x09F, 0x0A0].map memDefault) = [0, 0xF0, 0x80, 0] := by decide
theorem test_font_length : fontTable.length = 80 := by decide
/-- D5: `FONT_TABLE` is an argument of the reset; R58's edges with another font, and a `MEM_INIT` beside it. -/
theorem test_reset_arguments : ([0x04F, 0x050, 0x09F, 0x0A0].map (resetByte (fun k => BitVec.ofNat 8 (k.val + 1)) (fun _ => 0xEE))) =
    [0xEE, 1, 80, 0xEE] := by decide
theorem test_host_placement : (step (State.reset.withFetchWord 16 0x6A2B)) =
    exec (.ldImm 0xA 0x2B) (State.reset.withFetchWord 16 0x6A2B) := by rfl

/-! ### Witnesses: for each statement with hypotheses, a concrete state and operands that meet them, at the edges of their ranges -/

/-- The word at pc, as the statements about a Step write it. -/
abbrev wordAtPc (s : State) : Word := s.mem.read s.pc.toNat ++ s.mem.read (s.pc.toNat + 1)

theorem witness_OpcodeRowsArePairwiseDisjoint : (opcodeTable[(2 : Fin 34)]).selects 0x1ABC = true := by decide
theorem witness_DecoderFollowsTheOpcodeTable : decodeWord 0xFF65 = some (.loadRegs 15) ∧ decodeWord 0xFF66 = none := by decide
theorem witness_EncodeOfDecodeIsTheWord : decodeWord 0x8FFE = some (.shlReg 15 15) := by decide
theorem witness_StepRunsTheDecodedInstruction :
    (let s := ({ State.reset with pc := 0xFFE }).placeWord 0x6001
     s.es = .running ∧ s.pc.toNat ≤ 0xFFE ∧ decodeWord (wordAtPc s) = some (.ldImm 0 1)) := by decide +kernel
theorem witness_UnknownWordOnlyAdvancesPc :
    State.reset.es = .running ∧ State.reset.pc.toNat ≤ 0xFFE ∧ decodeWord (wordAtPc State.reset) = none := by decide +kernel
theorem witness_StepIsNoOpUnlessRunning : (State.reset.awaitKey 3).es = .awaitingKey ∧
    (State.reset.raise .stackOverflow).es = .haltedError ∧ (State.reset.setES .stopped).es = .stopped := by decide
theorem witness_FetchOutsideMemoryFaults :
    (State.reset.setPc 0xFFF).es = .running ∧ 0xFFE < (State.reset.setPc 0xFFF).pc.toNat := by decide
theorem witness_StoredWordIsExecutedByTheNextStep : (State.reset.setPc 0xFFE).es = .running ∧
    (State.reset.setPc 0xFFE).pc.toNat ≤ 0xFFE ∧ decodeWord ((0x12 : Byte) ++ (0x34 : Byte)) = some (.jp 0x234) := by decide
theorem witness_CallPushesTheReturnAddressOrOverflows :
    ({ State.reset with sp := 15 }).sp.val < 16 ∧ ({ State.reset with sp := 16 }).sp.val = 16 := by decide
theorem witness_ReturnPopsTheStackOrUnderflows :
    0 < ({ State.reset with sp := 16 }).sp.val ∧ 0 < ({ State.reset with sp := 1 }).sp.val ∧ State.reset.sp.val = 0 := by decide
theorem witness_ReturnAfterCallResumesAfterTheCall : ({ State.reset with sp := 15 }).sp.val < 16 := by decide
theorem witness_LogicInstructionsClearTheFlag : (0xE : Reg) ≠ flagReg ∧ 7 < 8 := by decide
theorem witness_AddReportsTheCarry : (0xE : Reg) ≠ flagReg := by decide
theorem witness_SubtractionsReportNoBorrow : (0 : Reg) ≠ flagReg := by decide
theorem witness_ShiftsTakeTheirSourceFromVy : (1 : Reg) ≠ flagReg := by decide
theorem witness_RandomByteIsMaskedWithTheImmediate : (0x0F : Byte).getLsbD 4 = false := by decide
theorem witness_OutcomesWhenTheFlagRegisterIsAnOperand :
    (let s := withRegs [(15, 3), (1, 10), (2, 4)]
     (1 : Reg) ≠ flagReg ∧ (2 : Reg) ≠ flagReg ∧ s.reg flagReg = 3 ∧ s.reg 1 = 10 ∧ s.reg 2 = 4) := by decide +kernel
theorem witness_DecimalDigitsAreStored :
    (State.reset.setI 0xFFD).i.toNat + 2 ≤ 0xFFF ∧ 0xFFF < (State.reset.setI 0xFFE).i.toNat + 2 := by decide
theorem witness_RegistersAreStoredFromI : (State.reset.setI 0xFF0).i.toNat + (15 : Reg).toNat ≤ 0xFFF ∧
    0xFFF < (State.reset.setI 0xFF1).i.toNat + (15 : Reg).toNat ∧ (15 : Reg).toNat ≤ (15 : Reg).toNat := by decide
theorem witness_RegistersAreLoadedFromI : (State.reset.setI 0xFFF).i.toNat + (0 : Reg).toNat ≤ 0xFFF ∧
    0xFFF < (State.reset.setI 0xFFF).i.toNat + (1 : Reg).toNat ∧ (0 : Reg).toNat < (1 : Reg).toNat := by decide
theorem witness_LoadingStoredRegistersRestoresThem : (State.reset.setI 0xFF0).i.toNat + (15 : Reg).toNat ≤ 0xFFF := by decide
theorem witness_DrawXorsTheClippedSpriteAndReportsCollision :
    ((0 : Rows).toNat = 0 ∨ (State.reset.setI 0xFFFF).i.toNat + (0 : Rows).toNat - 1 ≤ 0xFFF) ∧
    ((2 : Rows).toNat = 0 ∨ (State.reset.setI 0xFFE).i.toNat + (2 : Rows).toNat - 1 ≤ 0xFFF) ∧
    (0 < (3 : Rows).toNat ∧ 0xFFF < (State.reset.setI 0xFFE).i.toNat + (3 : Rows).toNat - 1) := by decide
/-- Glyph 0 at the top left corner covers pixel (4, 3) and not pixel (5, 0) (T-DRW-3). -/
theorem witness_sprite_covers_and_does_not : SpriteCovers (State.reset.setI 0x050) 0 0 5 4 3 ∧
    ¬SpriteCovers (State.reset.setI 0x050) 0 0 5 5 0 := by
  refine ⟨⟨4, 3, by decide, by decide, by decide, by decide, by decide⟩, ?_⟩
  rintro ⟨q, j, hq, -, hr, -, -⟩
  have h0 : ((State.reset.setI 0x050).reg 0).toNat % 32 = 0 := by decide
  have h5 : (5 : Rows).toNat = 5 := rfl
  omega
/-- It collides with a display whose pixel (4, 3) is set, and with no clear display. -/
theorem witness_sprite_collides_and_does_not :
    SpriteCollides ((State.reset.setI 0x050).setDisp (pixels [(4, 3)])) 0 0 5 ∧ ¬SpriteCollides (State.reset.setI 0x050) 0 0 5 := by
  refine ⟨⟨4, 3, by decide, by decide, ⟨4, 3, by decide, by decide, by decide, by decide, by decide⟩, by decide +kernel⟩, ?_⟩
  rintro ⟨r, c, hr, hc, -, hp⟩
  have : Display.pixel (State.reset.setI 0x050).disp r c = false := by
    simp [Display.pixel, State.setI, State.reset]
  rw [this] at hp; cases hp
theorem witness_DrawingTwiceRestoresTheDisplay : (0 : Reg) ≠ flagReg ∧ (1 : Reg) ≠ flagReg ∧
    ((5 : Rows).toNat = 0 ∨ (State.reset.setI 0x050).i.toNat + (5 : Rows).toNat - 1 ≤ 0xFFF) ∧
    (match exec (.drw 0 1 5) (State.reset.setI 0x050) with
      | .next t => some ((State.reset.setI 0x050).disp.pixel 4 3, t.disp.pixel 4 3)
      | _ => none) = some (false, true) := by decide +kernel
theorem witness_KeySkipsTestTheNamedKey : ((withRegs [(5, 15)]).reg 5).toNat = (15 : Key).toNat ∧
    15 < ((withRegs [(5, 16)]).reg 5).toNat := by decide +kernel
theorem witness_FaultEntryCommitsNothingElse : ∃ t, (State.reset.setPc 0xFFF).es = .running ∧
    step (State.reset.setPc 0xFFF) = .next t ∧ t.es = .haltedError :=
  ⟨(State.reset.setPc 0xFFF).raise .addressRange, rfl, rfl, rfl⟩
theorem witness_EachFaultHasItsInstructions : ∃ t, State.reset.es = .running ∧ exec .ret State.reset = .next t ∧
    t.es = .haltedError := ⟨State.reset.raise .stackUnderflow, rfl, rfl, rfl⟩
/-- The hypotheses of the statements about all instructions but some, met by 6xkk. -/
theorem witness_instruction_outside_every_exception : ∃ (i : Instr) (t : State), exec i State.reset = .next t ∧
    (∀ nnn, i ≠ .call nnn) ∧ i ≠ .ret ∧ i ≠ .cls ∧ (∀ x y n, i ≠ .drw x y n) ∧ (∀ x, i ≠ .ldDTVx x) ∧ (∀ x, i ≠ .ldSTVx x) ∧
    (∀ x, i ≠ .ldB x) ∧ (∀ x, i ≠ .storeRegs x) ∧ (∀ nnn, i ≠ .ldI nnn) ∧ (∀ x, i ≠ .addI x) ∧ (∀ x, i ≠ .ldF x) ∧
    (∀ x, i ≠ .loadRegs x) := ⟨.ldImm 1 2, (State.reset.setReg 1 2).advance, rfl, by simp⟩
theorem witness_OnlyNamedRegistersAreWritten : (2 : Reg) ∉ destRegs (.addReg 1 3) ++ (if writesFlag (.addReg 1 3) then [flagReg] else []) := by
  decide
theorem witness_TickCountsBothTimersDown : State.reset.es ≠ .stopped ∧ (quit State.reset).es = .stopped := by decide
theorem witness_KeyDownOnlySetsTheLevel : State.reset.es ≠ .stopped ∧ (14 : Key) ≠ 15 ∧ (quit State.reset).es = .stopped := by decide
theorem witness_KeyUpEndsTheWait : State.reset.key 15 = false ∧ (quit State.reset).es = .stopped ∧
    (State.reset.setKey 15 true).key 15 = true ∧ (State.reset.setKey 15 true).es ≠ .awaitingKey ∧
    ((State.reset.awaitKey 15).setKey 0 true).key 0 = true ∧ ((State.reset.awaitKey 15).setKey 0 true).es = .awaitingKey := by
  decide +kernel
theorem witness_QuitOnlyStops : (quit State.reset).es = .stopped := by decide
theorem witness_ExecutionStateFollowsItsTable : ∃ t, deliver .step (State.reset.placeWord 0xF30A) = .next t ∧
    (State.reset.placeWord 0xF30A).es = .running ∧ t.es = .awaitingKey :=
  ⟨((State.reset.placeWord 0xF30A).awaitKey 3).advance, by rfl, rfl, rfl⟩
theorem witness_EndedRunsStayEnded : ∃ t, hasEnded (quit State.reset) = true ∧
    deliverAll [.step, .tick, .keyDown 3, .keyUp 3, .quit] (quit State.reset) = .next t := ⟨quit State.reset, rfl, rfl⟩
theorem witness_SettledProgramIsUnchangedByAStep : hasSettled (State.reset.placeWord 0x1200) = true := by decide +kernel
theorem witness_LoadPlacesTheImage : (List.replicate 3584 (0xAA : Byte)).length ≤ 3584 ∧
    3584 < (List.replicate 3585 (0xAA : Byte)).length := by
  simp only [List.length_replicate]; omega
theorem witness_ResetLeavesTheTableOfValues : 79 < 80 ∧ 0x04F < 0x050 ∧ 0x0A0 ≤ 0xFFF ∧ 0xFFF < 4096 := by decide
/-- A state with the stack in use and pc and a return address at their bounds. -/
def atTheBounds : State := { State.reset with sp := 1, stack := State.reset.stack.set 0 0x1000, pc := 0x10FE }
theorem witness_invariant : Inv atTheBounds where
  memWf := by decide
  pcBounded := show atTheBounds.pc.toNat ≤ 0x10FE by decide
  stackBounded := by
    have h : ∀ j : Fin 16, (atTheBounds.stack[j]).toNat ≤ 0x1000 := by decide +kernel
    exact fun j hj => h ⟨j, hj⟩
  causeCoherent := ⟨fun h => (ExecState.noConfusion h), fun _ => rfl⟩
theorem witness_StepKeepsTheMachineBounds : ∃ t, step atTheBounds = .next t := ⟨_, rfl⟩
theorem witness_EveryEventKeepsTheMachineBounds : ∃ t, deliver (.keyUp 7) atTheBounds = .next t := ⟨_, rfl⟩
theorem witness_EventsKeepTheMachineBounds :
    ∃ t, deliverAll [.keyDown 7, .tick, .step, .keyUp 7, .quit] atTheBounds = .next t := ⟨_, rfl⟩

end Sys2Proof.Tests
end

section
/-!
PROOFS. Control transfer (41_control_flow.md): the jumps of R102 and R104 and the conditional skips of R105 to R108.
-/

namespace Sys2Proof.Machine

/-! ### Assigning pc -/

/-- Assigning pc is within the frame "pc alone": no register, no byte of memory and nothing else changes. -/
theorem onlyRegsAndPc_setPc (s : State) (a : Word) : OnlyRegsAndPc [] s (s.setPc a) :=
  ⟨fun r _ => State.setPc_reg s a r, State.setPc_i s a, fun _ => by rw [State.setPc_mem], rfl⟩

/-- Where a skip leaves pc (R100): 2 past `npc` or at `npc`, in 16 bits. -/
theorem skipIf_pc_toNat (s : State) (c : Bool) :
    (s.skipIf c).pc.toNat = (s.pc.toNat + if c then 4 else 2) % 65536 := by
  have hnpc := npc_toNat s
  rw [State.skipIf_eq, State.setPc_pc]
  cases c with
  | false => exact hnpc
  | true =>
    have hskip : (s.npc + 2).toNat = (s.npc.toNat + 2) % 65536 := BitVec.toNat_add ..
    simp only [if_true]
    omega

/-! ### What the instructions do -/

theorem exec_jp (s : State) (nnn : Addr12) : exec (.jp nnn) s = .next (s.setPc (addrOf nnn)) := rfl

theorem exec_jpV0 (s : State) (nnn : Addr12) :
    exec (.jpV0 nnn) s = .next (s.setPc (addrOf nnn + wordOf (s.reg 0))) := rfl

theorem exec_seImm (s : State) (x : Reg) (kk : Byte) :
    exec (.seImm x kk) s = .next (s.skipIf (decide (s.reg x = kk))) := rfl

theorem exec_sneImm (s : State) (x : Reg) (kk : Byte) :
    exec (.sneImm x kk) s = .next (s.skipIf (decide (s.reg x ≠ kk))) := rfl

theorem exec_seReg (s : State) (x y : Reg) :
    exec (.seReg x y) s = .next (s.skipIf (decide (s.reg x = s.reg y))) := rfl

theorem exec_sneReg (s : State) (x y : Reg) :
    exec (.sneReg x y) s = .next (s.skipIf (decide (s.reg x ≠ s.reg y))) := rfl

/-! ### The two senses of a skip -/

section Skips
variable {i : Instr} {s : State} {c : Bool} {p : Prop} [Decidable p]

/-- An instruction that skips when `p` holds adds 4 to pc if `p`, else 2, and changes nothing else. -/
theorem exec_skips_when (h : exec i s = .next (s.skipIf c)) (hc : c = true ↔ p) :
    ∃ t, exec i s = .next t ∧ t.pc.toNat = (s.pc.toNat + (if p then 4 else 2)) % 65536 ∧ OnlyRegsAndPc [] s t :=
  ⟨s.skipIf c, h, by simp only [skipIf_pc_toNat, hc], onlyRegsAndPc_setPc s _⟩

/-- An instruction that skips unless `p` holds adds 2 to pc if `p`, else 4, and changes nothing else. -/
theorem exec_skips_unless (h : exec i s = .next (s.skipIf c)) (hc : c = true ↔ ¬p) :
    ∃ t, exec i s = .next t ∧ t.pc.toNat = (s.pc.toNat + (if p then 2 else 4)) % 65536 ∧ OnlyRegsAndPc [] s t := by
  simpa only [ite_not] using exec_skips_when h hc

end Skips

/-! ### The obligations -/

/-- Settles O12: 1nnn assigns pc the zero extension of nnn. -/
theorem jumpSetsPc : Obligations.JumpSetsPc := by
  intro s nnn
  exact ⟨_, exec_jp s nnn, addrOf_toNat nnn, onlyRegsAndPc_setPc s _⟩

/-- Settles O13: Bnnn assigns pc the 16-bit sum of the two zero extensions. -/
theorem jumpWithOffsetAddsV0 : Obligations.JumpWithOffsetAddsV0 := by
  intro s nnn
  have hsum : (addrOf nnn + wordOf (s.reg 0)).toNat = (nnn.toNat + (s.reg 0).toNat) % 65536 := by
    rw [BitVec.toNat_add, addrOf_toNat, wordOf_toNat]
  exact ⟨_, exec_jpV0 s nnn, hsum, onlyRegsAndPc_setPc s _⟩

/-- Settles O17: 3xkk skips when `Vx = kk`, 4xkk unless it does. -/
theorem skipsComparingWithAnImmediate : Obligations.SkipsComparingWithAnImmediate := by
  intro s x kk
  exact ⟨exec_skips_when (exec_seImm s x kk) decide_eq_true_iff,
    exec_skips_unless (exec_sneImm s x kk) decide_eq_true_iff⟩

/-- Settles O18: 5xy0 skips when `Vx = Vy`, 9xy0 unless it does. -/
theorem skipsComparingTwoRegisters : Obligations.SkipsComparingTwoRegisters := by
  intro s x y
  exact ⟨exec_skips_when (exec_seReg s x y) decide_eq_true_iff,
    exec_skips_unless (exec_sneReg s x y) decide_eq_true_iff⟩

end Sys2Proof.Machine
end

section
/-!
PROOFS. Register file and ALU (42_register_alu.md): the loads of R121 and R123, the sums of R122 and R127, the logic of R124 to
R126 and the masked random byte of R132.
-/

namespace Sys2Proof.Machine

/-! ### Writing registers and advancing -/

section Frames
variable (s : State) (x : Reg) (b : Byte) (c : Bool)

/-- Writing `V[x]` keeps every other register. -/
theorem regsKeptExcept_setReg : RegsKeptExcept [x] s (s.setReg x b) := fun _ hr =>
  reg_setReg_ne s b (Ne.symm (List.ne_of_not_mem_cons hr))

/-- Writing `V[x]` and the flag keeps every register but these two. -/
theorem regsKeptExcept_resultThenFlag : RegsKeptExcept [x, flagReg] s (s.resultThenFlag x b c) := by
  intro r hr
  obtain ⟨hx, hflag⟩ : r ≠ x ∧ r ≠ flagReg := by simpa using hr
  rw [reg_resultThenFlag, if_neg hflag, if_neg hx]

theorem advance_reg (r : Reg) : s.advance.reg r = s.reg r := by
  rw [State.advance_eq, State.setPc_reg]

/-- Writing `V[x]` and advancing is within the frame "pc and `V[x]`". -/
theorem onlyRegsAndPc_setReg_advance : OnlyRegsAndPc [x] s (s.setReg x b).advance :=
  ⟨regsKeptExcept_setReg s x b, rfl, fun _ => rfl, rfl⟩

/-- Writing `V[x]` and the flag and advancing is within the frame "pc, `V[x]` and V15". -/
theorem onlyRegsAndPc_resultThenFlag_advance : OnlyRegsAndPc [x, flagReg] s (s.resultThenFlag x b c).advance :=
  ⟨regsKeptExcept_resultThenFlag s x b c, rfl, fun _ => rfl, rfl⟩

/-- After the result and then the flag, V15 is the flag, also when it is the destination (R133). -/
theorem reg_flagReg_resultThenFlag : (s.resultThenFlag x b c).reg flagReg = flagByte c := by
  rw [reg_resultThenFlag, if_pos rfl]

/-- A destination other than V15 keeps the result under the flag's write. -/
theorem reg_dest_resultThenFlag (hx : x ≠ flagReg) : (s.resultThenFlag x b c).reg x = b := by
  rw [reg_resultThenFlag, if_neg hx, if_pos rfl]

end Frames

/-- The flag of a decidable condition, as a number (R25). -/
theorem flagByte_decide_toNat (p : Prop) [Decidable p] : (flagByte (decide p)).toNat = if p then 1 else 0 := by
  by_cases hp : p <;> simp [flagByte, hp]

/-! ### What the instructions do -/

theorem exec_ldImm (s : State) (x : Reg) (kk : Byte) : exec (.ldImm x kk) s = .next (s.setReg x kk).advance := rfl

theorem exec_ldReg (s : State) (x y : Reg) : exec (.ldReg x y) s = .next (s.setReg x (s.reg y)).advance := rfl

theorem exec_addImm (s : State) (x : Reg) (kk : Byte) :
    exec (.addImm x kk) s = .next (s.setReg x (addResult (s.reg x) kk)).advance := rfl

theorem exec_orReg (s : State) (x y : Reg) :
    exec (.orReg x y) s = .next (s.resultThenFlag x (s.reg x ||| s.reg y) false).advance := rfl

theorem exec_andReg (s : State) (x y : Reg) :
    exec (.andReg x y) s = .next (s.resultThenFlag x (s.reg x &&& s.reg y) false).advance := rfl

theorem exec_xorReg (s : State) (x y : Reg) :
    exec (.xorReg x y) s = .next (s.resultThenFlag x (s.reg x ^^^ s.reg y) false).advance := rfl

theorem exec_addReg (s : State) (x y : Reg) : exec (.addReg x y) s =
    .next (s.resultThenFlag x (addResult (s.reg x) (s.reg y)) (carryOut (s.reg x) (s.reg y))).advance := rfl

theorem exec_rnd (s : State) (x : Reg) (kk : Byte) :
    exec (.rnd x kk) s = .next (s.setReg x (s.drawByte &&& kk)).nextDraw.advance := rfl

/-! ### The two shapes: one destination, a destination and the flag -/

section Shapes
variable {i : Instr} {s : State} {x : Reg} {b : Byte} {c : Bool}

/-- An instruction that writes one register and advances leaves the byte there, adds 2 to pc and changes nothing else. -/
theorem exec_writes_dest (h : exec i s = .next (s.setReg x b).advance) :
    ∃ t, exec i s = .next t ∧ t.reg x = b ∧ t.pc = s.pc + 2 ∧ OnlyRegsAndPc [x] s t :=
  ⟨_, h, reg_setReg_same s x b, rfl, onlyRegsAndPc_setReg_advance s x b⟩

/-- An instruction that writes a result and then the flag leaves the flag in V15 and, in any other destination, the result;
it adds 2 to pc and changes nothing else. -/
theorem exec_writes_dest_then_flag (h : exec i s = .next (s.resultThenFlag x b c).advance) :
    ∃ t, exec i s = .next t ∧ t.reg flagReg = flagByte c ∧ (x ≠ flagReg → t.reg x = b) ∧ t.pc = s.pc + 2 ∧
      OnlyRegsAndPc [x, flagReg] s t :=
  ⟨_, h, reg_flagReg_resultThenFlag s x b c, reg_dest_resultThenFlag s x b c, rfl,
    onlyRegsAndPc_resultThenFlag_advance s x b c⟩

/-- A logic instruction: V15 is cleared and each bit of the result is what `f` says. -/
theorem exec_logic {f : Nat → Bool} (h : exec i s = .next (s.resultThenFlag x b false).advance)
    (hf : ∀ k, b.getLsbD k = f k) :
    ∃ t, exec i s = .next t ∧ t.reg flagReg = 0 ∧ (x ≠ flagReg → ∀ k, k < 8 → (t.reg x).getLsbD k = f k) ∧
      t.pc = s.pc + 2 ∧ OnlyRegsAndPc [x, flagReg] s t := by
  obtain ⟨t, ht, hflag, hdest, hpc, hframe⟩ := exec_writes_dest_then_flag h
  exact ⟨t, ht, hflag, fun hx k _ => by rw [hdest hx, hf k], hpc, hframe⟩

end Shapes

/-! ### The obligations -/

/-- Settles O19: 6xkk writes kk to Vx, 8xy0 writes Vy. -/
theorem loadImmediateAndCopyWriteOnlyVx : Obligations.LoadImmediateAndCopyWriteOnlyVx := by
  intro s x y kk
  exact ⟨exec_writes_dest (exec_ldImm s x kk), exec_writes_dest (exec_ldReg s x y)⟩

/-- Settles O20: the byte that 7xkk writes to Vx is the sum modulo 256, and it writes no other register. -/
theorem addImmediateWrapsAndSetsNoFlag : Obligations.AddImmediateWrapsAndSetsNoFlag := by
  intro s x kk
  obtain ⟨t, ht, hdest, hpc, hframe⟩ := exec_writes_dest (exec_addImm s x kk)
  exact ⟨t, ht, by rw [hdest, addResult_toNat], hpc, hframe⟩

/-- Settles O21: each of the three is a logic instruction with its own operation on bits. -/
theorem logicInstructionsClearTheFlag : Obligations.LogicInstructionsClearTheFlag := by
  intro s x y
  exact ⟨exec_logic (exec_orReg s x y) fun _ => BitVec.getLsbD_or,
    exec_logic (exec_andReg s x y) fun _ => BitVec.getLsbD_and,
    exec_logic (exec_xorReg s x y) fun _ => BitVec.getLsbD_xor⟩

/-- Settles O22: the result is the sum modulo 256, and the flag written after it is the carry. -/
theorem addReportsTheCarry : Obligations.AddReportsTheCarry := by
  intro s x y
  obtain ⟨t, ht, hflag, hdest, hpc, hframe⟩ := exec_writes_dest_then_flag (exec_addReg s x y)
  have hcarry : (t.reg flagReg).toNat = if 255 < (s.reg x).toNat + (s.reg y).toNat then 1 else 0 := by
    rw [hflag, carryOut, flagByte_decide_toNat]
  exact ⟨t, ht, hcarry, fun hx => by rw [hdest hx, addResult_toNat], hpc, hframe⟩

/-- Settles O25: the byte is the one drawn (`State.drawByte`), and the mask clears each bit that is 0 in kk. -/
theorem randomByteIsMaskedWithTheImmediate : Obligations.RandomByteIsMaskedWithTheImmediate := by
  intro s x kk
  have hdest : (s.setReg x (s.drawByte &&& kk)).nextDraw.advance.reg x = s.drawByte &&& kk := by
    rw [advance_reg, State.nextDraw_reg, reg_setReg_same]
  refine ⟨_, s.drawByte, exec_rnd s x kk, hdest, fun b hb => ?_, rfl, regsKeptExcept_setReg s x _, rfl, fun _ => rfl, rfl⟩
  rw [hdest, BitVec.getLsbD_and, hb, Bool.and_false]

end Sys2Proof.Machine
end

section
/-!
PROOFS. The address register (43_index_memory.md): the load of R140 and the sum of R141.
-/

namespace Sys2Proof.Machine

/-- Assigning I and advancing is within the frame "I and pc": no register, V15 included, and no byte of memory changes. -/
theorem onlyIAndPc_setI_advance (s : State) (a : Word) : OnlyIAndPc s (s.setI a).advance :=
  ⟨fun r _ => by rw [advance_reg, State.setI_reg], fun _ => rfl, rfl⟩

/-! ### What the instructions do -/

theorem exec_ldI (s : State) (nnn : Addr12) : exec (.ldI nnn) s = .next (s.setI (addrOf nnn)).advance := rfl

theorem exec_addI (s : State) (x : Reg) : exec (.addI x) s = .next (s.setI (s.i + wordOf (s.reg x))).advance := rfl

/-- An instruction that assigns I and advances leaves the word in I, adds 2 to pc and changes nothing else. -/
theorem exec_writes_i {i : Instr} {s : State} {a : Word} (h : exec i s = .next (s.setI a).advance) :
    ∃ t, exec i s = .next t ∧ t.i = a ∧ t.pc = s.pc + 2 ∧ OnlyIAndPc s t :=
  ⟨_, h, rfl, rfl, onlyIAndPc_setI_advance s a⟩

/-! ### The obligation -/

/-- Settles O27: Annn assigns I the zero extension of nnn, Fx1E the 16-bit sum of I and the zero extension of Vx. -/
theorem addressRegisterIsLoadedAndAdded : Obligations.AddressRegisterIsLoadedAndAdded := by
  intro s x nnn
  constructor
  · obtain ⟨t, ht, hi, hpc, hframe⟩ := exec_writes_i (exec_ldI s nnn)
    exact ⟨t, ht, by rw [hi, addrOf_toNat], hpc, hframe⟩
  · obtain ⟨t, ht, hi, hpc, hframe⟩ := exec_writes_i (exec_addI s x)
    exact ⟨t, ht, by rw [hi, BitVec.toNat_add, wordOf_toNat], hpc, hframe⟩

end Sys2Proof.Machine
end

section
/-!
PROOFS. The display (44_display.md): the clear of R150.
-/

namespace Sys2Proof.Machine

theorem exec_cls (s : State) : exec .cls s = .next (s.setDisp Display.clear).advance := rfl

/-- Replacing the display and advancing changes no register, V15 included. -/
theorem regsKeptExcept_setDisp_advance (s : State) (d : Display) : RegsKeptExcept [] s (s.setDisp d).advance :=
  fun r _ => by rw [advance_reg, State.setDisp_reg]

/-- Replacing the display and advancing changes no byte of memory. -/
theorem memKept_setDisp_advance (s : State) (d : Display) : MemKept s (s.setDisp d).advance :=
  fun a => by rw [State.advance_eq, State.setPc_mem, State.setDisp_mem]

/-! ### The obligation -/

/-- Settles O33: 00E0 replaces the display by the clear one, whose every pixel is 0 (`pixel_clear`), and advances. -/
theorem clearDisplayClearsEveryPixel : Obligations.ClearDisplayClearsEveryPixel := by
  intro s
  have hclear : ∀ r c, r < 32 → c < 64 → (s.setDisp Display.clear).advance.disp.pixel r c = false :=
    fun r c _ _ => pixel_clear r c
  exact ⟨_, exec_cls s, hclear, rfl, regsKeptExcept_setDisp_advance s _, rfl, memKept_setDisp_advance s _, rfl⟩

end Sys2Proof.Machine
end

section
/-!
PROOFS. Timer access (45_keypad_timers.md): the read of DT of R163 and the writes of DT and ST of R164 and R165.
-/

namespace Sys2Proof.Machine

/-! ### What the instructions do -/

theorem exec_ldVxDT (s : State) (x : Reg) : exec (.ldVxDT x) s = .next (s.setReg x s.dt).advance := rfl

theorem exec_ldDTVx (s : State) (x : Reg) : exec (.ldDTVx x) s = .next (s.setDT (s.reg x)).advance := rfl

theorem exec_ldSTVx (s : State) (x : Reg) : exec (.ldSTVx x) s = .next (s.setST (s.reg x)).advance := rfl

/-! ### Writing a timer and advancing -/

section Frames
variable (s : State) (b : Byte)

/-- Writing DT and advancing changes no register. -/
theorem regsKeptExcept_setDT_advance : RegsKeptExcept [] s (s.setDT b).advance :=
  fun r _ => by rw [advance_reg, State.setDT_reg]

/-- Writing DT and advancing changes no byte of memory. -/
theorem memKept_setDT_advance : MemKept s (s.setDT b).advance :=
  fun a => by rw [State.advance_eq, State.setPc_mem, State.setDT_mem]

/-- Writing ST and advancing changes no register. -/
theorem regsKeptExcept_setST_advance : RegsKeptExcept [] s (s.setST b).advance :=
  fun r _ => by rw [advance_reg, State.setST_reg]

/-- Writing ST and advancing changes no byte of memory. -/
theorem memKept_setST_advance : MemKept s (s.setST b).advance :=
  fun a => by rw [State.advance_eq, State.setPc_mem, State.setST_mem]

/-- After ST is written, the sound output is true exactly when the byte written is above 0. -/
theorem soundActive_setST_advance : soundActive (s.setST b).advance = true ↔ 0 < b.toNat := by
  rw [soundActive_iff, State.advance_eq, State.setPc_st, State.setST_st]

end Frames

/-! ### The obligation -/

/-- Settles O38: Fx07 is a write of DT to one register, Fx15 and Fx18 are writes of Vx to a timer, and the sound output is a
function of ST (`soundActive_setST_advance`). -/
theorem timersAreReadAndWritten : Obligations.TimersAreReadAndWritten := by
  intro s x
  refine ⟨exec_writes_dest (exec_ldVxDT s x), ?dtWrite, ?stWrite⟩
  case dtWrite =>
    exact ⟨_, exec_ldDTVx s x, rfl, rfl, regsKeptExcept_setDT_advance s _, memKept_setDT_advance s _, rfl⟩
  case stWrite =>
    exact ⟨_, exec_ldSTVx s x, rfl, soundActive_setST_advance s _, rfl, regsKeptExcept_setST_advance s _,
      memKept_setST_advance s _, rfl⟩

end Sys2Proof.Machine
end

section
/-!
PROOFS. Exceptions and events (60_exceptions.md): the Quit of R183.
-/

namespace Sys2Proof.Machine

/-! ### Assigning ES -/

/-- Of two assignments of ES the later one counts. -/
@[simp] theorem setES_setES (s : State) (e f : ExecState) : (s.setES e).setES f = s.setES f := rfl

/-- Assigning ES the value it has changes nothing. -/
@[simp] theorem setES_self (s : State) : s.setES s.es = s := rfl

/-! ### Quit -/

theorem deliver_quit (s : State) : deliver .quit s = .next (quit s) := rfl

theorem quit_eq (s : State) : quit s = s.setES .stopped := rfl

theorem quit_es (s : State) : (quit s).es = .stopped := by rw [quit_eq, State.setES_es]

/-- ES is all that a Quit changes: with its old value put back the state is the old one. -/
theorem quit_setES_old (s : State) : (quit s).setES s.es = s := by rw [quit_eq, setES_setES, setES_self]

/-- A Quit in STOPPED changes nothing: it assigns ES the value it has. -/
theorem quit_of_stopped {s : State} (h : s.es = .stopped) : quit s = s := by rw [quit_eq, ← h, setES_self]

/-- Settles O50: Quit assigns ES and touches nothing else, so it leaves a STOPPED state as it is. -/
theorem quitOnlyStops : Obligations.QuitOnlyStops :=
  fun s => ⟨deliver_quit s, quit_es s, quit_setES_old s, quit_of_stopped⟩

end Sys2Proof.Machine
end

section
/-!
PROOFS. Reset and start-up (70_reset_and_hazards.md): the Load of R205.
-/

namespace Sys2Proof.Machine

/-! ### Bytes stored in a run -/

/-- Byte `k` of bytes stored within memory from `a` on is read back at `a + k`. -/
theorem read_writeBytes_add (m : Memory) (a : Nat) (bs : List Byte) (h : a + bs.length ≤ Config.memSize) (k : Nat)
    (hk : k < bs.length) : (m.writeBytes a bs).read (a + k) = bs[k] := by
  have hin : a ≤ a + k ∧ a + k < a + bs.length := by omega
  simp only [read_writeBytes m a _ bs h, dif_pos hin, Nat.add_sub_cancel_left]

/-- Memory is all that a store changes: with the old memory put back the state is the old one. -/
theorem storeBytes_mem_old (s : State) (a : Nat) (bs : List Byte) : { s.storeBytes a bs with mem := s.mem } = s := rfl

/-- A store keeps memory outside its range. -/
theorem memKeptOutside_storeBytes (s : State) (a : Nat) (bs : List Byte) :
    MemKeptOutside a bs.length s (s.storeBytes a bs) := by
  intro k hk
  rw [State.storeBytes_eq, State.setMem_mem, read_writeBytes_outside _ _ _ _ hk]

/-! ### Load -/

theorem imageFits_iff (image : List Byte) : imageFits image = true ↔ image.length ≤ 3584 := decide_eq_true_iff

/-- An image that fits is stored from 0x200 on. -/
theorem load_of_fits {image : List Byte} (h : image.length ≤ 3584) (s : State) :
    load image s = .next (s.storeBytes 0x200 image) := if_pos ((imageFits_iff image).mpr h)

/-- An image that does not fit is refused. -/
theorem load_of_too_large {image : List Byte} (h : 3584 < image.length) (s : State) :
    load image s = .fault .programTooLarge :=
  if_neg fun hfits => Nat.not_le.mpr h ((imageFits_iff image).mp hfits)

/-- Settles O54: an image that fits ends at or below 0x1000, so each of its bytes is in memory and is read back. -/
theorem loadPlacesTheImage : Obligations.LoadPlacesTheImage := by
  refine fun image s => ⟨fun hfits => ?placed, fun hlarge => load_of_too_large hlarge s⟩
  case placed =>
    have hrange : 0x200 + image.length ≤ Config.memSize := by
      simp only [Config.memSize]
      omega
    exact ⟨_, load_of_fits hfits s, read_writeBytes_add s.mem 0x200 image hrange, memKeptOutside_storeBytes s _ _,
      storeBytes_mem_old s _ _⟩

end Sys2Proof.Machine
end

section
/-!
PROOFS. Encoding (30_encoding.md): the decoder and the encoder are inverse to each other, and both follow the opcode table of R75.
-/

namespace Sys2Proof

/-! ### Encoding, then decoding -/

/-- The decoder on the encoder's word: the group is the word's major opcode, the row in the group its fixed field, and the
operands are the fields the word was assembled from. -/
@[simp] theorem decodeWord_encodeWord (i : Instr) : decodeWord (encodeWord i) = some i := by
  cases i
  case cls => rfl
  case ret => rfl
  all_goals simp [encodeWord, decodeWord, decodeIfNZero, decodeGroup8, decodeGroupE, decodeGroupF]

/-- Each instruction has its own word. -/
theorem encodeWord_injective {i j : Instr} (h : encodeWord i = encodeWord j) : i = j := by
  simpa using congrArg decodeWord h

theorem encode_append (i : Instr) (rest : List Byte) :
    encode i ++ rest = highByte (encodeWord i) :: lowByte (encodeWord i) :: rest := rfl

/-- Settles O4: the two bytes give the word back (`decode_bytes`), and the word its instruction. -/
theorem decodeOfEncodeIsTheInstruction : Obligations.DecodeOfEncodeIsTheInstruction := by
  intro i rest
  rw [encode_append, decode_bytes, decodeWord_encodeWord]

/-! ### Decoding, then encoding -/

section Groups
variable {op : Word} {i : Instr}

/-- A word of group 0 is the word of the instruction it decodes to. -/
theorem encodeWord_of_decodeGroup0 (hmajor : majorField op = 0x0#4) (h : decodeGroup0 op = some i) : encodeWord i = op := by
  have hop := wordA_fields op
  rw [hmajor] at hop
  unfold decodeGroup0 at h
  split_ifs at h with hnnn hnnn <;> cases h <;> rw [hnnn] at hop <;> exact hop

/-- Groups 5 and 9: where the decoder's test of `n` holds, the word is assembled from the major opcode, `x`, `y` and `n = 0`. -/
theorem encodeWord_of_decodeIfNZero {m : BitVec 4} {j : Instr} (hmajor : majorField op = m)
    (hj : encodeWord j = wordRRN m (xField op) (yField op) 0x0#4) (h : decodeIfNZero op j = some i) : encodeWord i = op := by
  unfold decodeIfNZero at h
  split_ifs at h with hn
  cases h
  rw [hj, ← hmajor, ← hn, wordRRN_fields]

theorem encodeWord_of_decodeGroup8 (hmajor : majorField op = 0x8#4) (h : decodeGroup8 op = some i) : encodeWord i = op := by
  have hop := wordRRN_fields op
  rw [hmajor] at hop
  unfold decodeGroup8 at h
  dsimp only at h
  split_ifs at h with hn hn hn hn hn hn hn hn hn <;> cases h <;> rw [hn] at hop <;> exact hop

theorem encodeWord_of_decodeGroupE (hmajor : majorField op = 0xE#4) (h : decodeGroupE op = some i) : encodeWord i = op := by
  have hop := wordRI_fields op
  rw [hmajor] at hop
  unfold decodeGroupE at h
  dsimp only at h
  split_ifs at h with hkk hkk <;> cases h <;> rw [hkk] at hop <;> exact hop

theorem encodeWord_of_decodeGroupF (hmajor : majorField op = 0xF#4) (h : decodeGroupF op = some i) : encodeWord i = op := by
  have hop := wordRI_fields op
  rw [hmajor] at hop
  unfold decodeGroupF at h
  dsimp only at h
  split_ifs at h with hkk hkk hkk hkk hkk hkk hkk hkk hkk <;> cases h <;> rw [hkk] at hop <;> exact hop

end Groups

/-- Settles O5: in each group the word is assembled from its major opcode and the fields the decoder read (`wordA_fields`,
`wordRI_fields`, `wordRRN_fields`). -/
theorem encodeOfDecodeIsTheWord : Obligations.EncodeOfDecodeIsTheWord := by
  intro op i h
  unfold decodeWord at h
  obtain ⟨h0, h⟩ | ⟨h0, h⟩ := ite_eq_iff.mp h
  · exact encodeWord_of_decodeGroup0 h0 h
  obtain ⟨h1, h⟩ | ⟨h1, h⟩ := ite_eq_iff.mp h
  · cases h; rw [encodeWord, ← h1, wordA_fields]
  obtain ⟨h2, h⟩ | ⟨h2, h⟩ := ite_eq_iff.mp h
  · cases h; rw [encodeWord, ← h2, wordA_fields]
  obtain ⟨h3, h⟩ | ⟨h3, h⟩ := ite_eq_iff.mp h
  · cases h; rw [encodeWord, ← h3, wordRI_fields]
  obtain ⟨h4, h⟩ | ⟨h4, h⟩ := ite_eq_iff.mp h
  · cases h; rw [encodeWord, ← h4, wordRI_fields]
  obtain ⟨h5, h⟩ | ⟨h5, h⟩ := ite_eq_iff.mp h
  · exact encodeWord_of_decodeIfNZero h5 rfl h
  obtain ⟨h6, h⟩ | ⟨h6, h⟩ := ite_eq_iff.mp h
  · cases h; rw [encodeWord, ← h6, wordRI_fields]
  obtain ⟨h7, h⟩ | ⟨h7, h⟩ := ite_eq_iff.mp h
  · cases h; rw [encodeWord, ← h7, wordRI_fields]
  obtain ⟨h8, h⟩ | ⟨h8, h⟩ := ite_eq_iff.mp h
  · exact encodeWord_of_decodeGroup8 h8 h
  obtain ⟨h9, h⟩ | ⟨h9, h⟩ := ite_eq_iff.mp h
  · exact encodeWord_of_decodeIfNZero h9 rfl h
  obtain ⟨hA, h⟩ | ⟨hA, h⟩ := ite_eq_iff.mp h
  · cases h; rw [encodeWord, ← hA, wordA_fields]
  obtain ⟨hB, h⟩ | ⟨hB, h⟩ := ite_eq_iff.mp h
  · cases h; rw [encodeWord, ← hB, wordA_fields]
  obtain ⟨hC, h⟩ | ⟨hC, h⟩ := ite_eq_iff.mp h
  · cases h; rw [encodeWord, ← hC, wordRI_fields]
  obtain ⟨hD, h⟩ | ⟨hD, h⟩ := ite_eq_iff.mp h
  · cases h; rw [encodeWord, ← hD, wordRRN_fields]
  obtain ⟨hE, h⟩ | ⟨hE, h⟩ := ite_eq_iff.mp h
  · exact encodeWord_of_decodeGroupE hE h
  exact encodeWord_of_decodeGroupF (by bv_omega) h

/-! ### The opcode table (R75) -/

/-- The encoder's word is selected by the instruction's own row. -/
theorem row_selects_encodeWord (i : Instr) : i.row.selects (encodeWord i) = true := by
  open Laws.EncodesToRow in
  cases i
  exacts [cls, ret, jp _, call _, seImm _ _, sneImm _ _, seReg _ _, ldImm _ _, addImm _ _, ldReg _ _, orReg _ _, andReg _ _,
    xorReg _ _, addReg _ _, subReg _ _, shrReg _ _, subnReg _ _, shlReg _ _, sneReg _ _, ldI _, jpV0 _, rnd _ _, drw _ _ _,
    skp _, sknp _, ldVxDT _, ldVxK _, ldDTVx _, ldSTVx _, addI _, ldF _, ldB _, storeRegs _, loadRegs _]

section Masked
variable {op : Word} {m n : BitVec 4} {kk : Byte}

/-- A word whose mask leaves the major opcode `m` is assembled from `m` and its own `nnn`. -/
theorem wordA_of_masked (h : op &&& 0xF000#16 = wordA m 0) : wordA m (nnnField op) = op := by
  have hm : majorField op = m := by
    rw [← wordA_fields op, wordA_major] at h
    simpa using congrArg majorField h
  rw [← hm, wordA_fields]

/-- The same in the format of `x` and `kk`. -/
theorem wordRI_of_masked (h : op &&& 0xF000#16 = wordRI m 0 0) : wordRI m (xField op) (kkField op) = op := by
  have hm : majorField op = m := by
    rw [← wordRI_fields op, wordRI_major] at h
    simpa using congrArg majorField h
  rw [← hm, wordRI_fields]

/-- The same in the format of `x`, `y` and `n`. -/
theorem wordRRN_of_masked (h : op &&& 0xF000#16 = wordRRN m 0 0 0) :
    wordRRN m (xField op) (yField op) (nField op) = op := by
  have hm : majorField op = m := by
    rw [← wordRRN_fields op, wordRRN_major] at h
    simpa using congrArg majorField h
  rw [← hm, wordRRN_fields]

/-- A word whose mask leaves the major opcode `m` and the byte `kk` is assembled from these and its own `x`. -/
theorem wordRI_of_masked_kk (h : op &&& 0xF0FF#16 = wordRI m 0 kk) : wordRI m (xField op) kk = op := by
  rw [← wordRI_fields op, wordRI_majorKk] at h
  have hm : majorField op = m := by simpa using congrArg majorField h
  have hkk : kkField op = kk := by simpa using congrArg kkField h
  rw [← hm, ← hkk, wordRI_fields]

/-- A word whose mask leaves the major opcode `m` and the nibble `n` is assembled from these and its own `x` and `y`. -/
theorem wordRRN_of_masked_n (h : op &&& 0xF00F#16 = wordRRN m 0 0 n) : wordRRN m (xField op) (yField op) n = op := by
  rw [← wordRRN_fields op, wordRRN_majorN] at h
  have hm : majorField op = m := by simpa using congrArg majorField h
  have hn : nField op = n := by simpa using congrArg nField h
  rw [← hm, ← hn, wordRRN_fields]

end Masked

/-- A word that a row selects is the word of an instruction of that row: its operands are the fields under the mask's zeros. -/
theorem exists_encodeWord_of_selects (k : Fin 34) (op : Word) (h : (opcodeTable[k]).selects op = true) :
    ∃ i, i.rowIndex = k ∧ encodeWord i = op := by
  have hbits : op &&& (opcodeTable[k]).mask = (opcodeTable[k]).bits := of_decide_eq_true h
  fin_cases k
  exacts [
    ⟨.cls, rfl, hbits.symm.trans BitVec.and_allOnes⟩,
    ⟨.ret, rfl, hbits.symm.trans BitVec.and_allOnes⟩,
    ⟨.jp _, rfl, wordA_of_masked hbits⟩,
    ⟨.call _, rfl, wordA_of_masked hbits⟩,
    ⟨.seImm _ _, rfl, wordRI_of_masked hbits⟩,
    ⟨.sneImm _ _, rfl, wordRI_of_masked hbits⟩,
    ⟨.seReg _ _, rfl, wordRRN_of_masked_n hbits⟩,
    ⟨.ldImm _ _, rfl, wordRI_of_masked hbits⟩,
    ⟨.addImm _ _, rfl, wordRI_of_masked hbits⟩,
    ⟨.ldReg _ _, rfl, wordRRN_of_masked_n hbits⟩,
    ⟨.orReg _ _, rfl, wordRRN_of_masked_n hbits⟩,
    ⟨.andReg _ _, rfl, wordRRN_of_masked_n hbits⟩,
    ⟨.xorReg _ _, rfl, wordRRN_of_masked_n hbits⟩,
    ⟨.addReg _ _, rfl, wordRRN_of_masked_n hbits⟩,
    ⟨.subReg _ _, rfl, wordRRN_of_masked_n hbits⟩,
    ⟨.shrReg _ _, rfl, wordRRN_of_masked_n hbits⟩,
    ⟨.subnReg _ _, rfl, wordRRN_of_masked_n hbits⟩,
    ⟨.shlReg _ _, rfl, wordRRN_of_masked_n hbits⟩,
    ⟨.sneReg _ _, rfl, wordRRN_of_masked_n hbits⟩,
    ⟨.ldI _, rfl, wordA_of_masked hbits⟩,
    ⟨.jpV0 _, rfl, wordA_of_masked hbits⟩,
    ⟨.rnd _ _, rfl, wordRI_of_masked hbits⟩,
    ⟨.drw _ _ _, rfl, wordRRN_of_masked hbits⟩,
    ⟨.skp _, rfl, wordRI_of_masked_kk hbits⟩,
    ⟨.sknp _, rfl, wordRI_of_masked_kk hbits⟩,
    ⟨.ldVxDT _, rfl, wordRI_of_masked_kk hbits⟩,
    ⟨.ldVxK _, rfl, wordRI_of_masked_kk hbits⟩,
    ⟨.ldDTVx _, rfl, wordRI_of_masked_kk hbits⟩,
    ⟨.ldSTVx _, rfl, wordRI_of_masked_kk hbits⟩,
    ⟨.addI _, rfl, wordRI_of_masked_kk hbits⟩,
    ⟨.ldF _, rfl, wordRI_of_masked_kk hbits⟩,
    ⟨.ldB _, rfl, wordRI_of_masked_kk hbits⟩,
    ⟨.storeRegs _, rfl, wordRI_of_masked_kk hbits⟩,
    ⟨.loadRegs _, rfl, wordRI_of_masked_kk hbits⟩]

/-- Settles O2: a word that two rows select is the word of an instruction of each (`exists_encodeWord_of_selects`), and these
instructions are equal. -/
theorem opcodeRowsArePairwiseDisjoint : Obligations.OpcodeRowsArePairwiseDisjoint := by
  intro j k op hj hk
  obtain ⟨i, hi, hop⟩ := exists_encodeWord_of_selects j op hj
  obtain ⟨i', hi', hop'⟩ := exists_encodeWord_of_selects k op hk
  have hsame : i = i' := encodeWord_injective (hop.trans hop'.symm)
  rw [← hi, ← hi', hsame]

/-- Settles O3: a decoded word is the encoder's, so the instruction's row selects it; a word of a row is the encoder's, so it
decodes. -/
theorem decoderFollowsTheOpcodeTable : Obligations.DecoderFollowsTheOpcodeTable := by
  intro op
  have hrow : ∀ i, decodeWord op = some i → i.row.selects op = true := by
    intro i h
    rw [← encodeOfDecodeIsTheWord op i h]
    exact row_selects_encodeWord i
  refine ⟨hrow, fun hnone k => ?unselected, fun hunselected => ?undecoded⟩
  case unselected =>
    rw [Bool.eq_false_iff]
    intro hk
    obtain ⟨i, -, rfl⟩ := exists_encodeWord_of_selects k op hk
    rw [decodeWord_encodeWord] at hnone
    cases hnone
  case undecoded =>
    rw [Option.eq_none_iff_forall_ne_some]
    intro i h
    have hselected := hrow i h
    rw [Instr.row, hunselected] at hselected
    cases hselected

/-- Settles O1: each word is one case of the decoder, evaluated. -/
theorem knownWordsDecodeAsTheTableSays : Obligations.KnownWordsDecodeAsTheTableSays := by
  unfold Obligations.KnownWordsDecodeAsTheTableSays
  decide

end Sys2Proof
end

section
/-!
PROOFS. The Step event (40_fetch_decode_execute.md): what a Step does in each of its four branches.
-/

namespace Sys2Proof.Machine

/-! ### The four branches of a Step (R90 to R95) -/

/-- The word of the two bytes at pc, high byte first (R52, R91). -/
def State.wordAtPc (s : State) : Word := wordOfBytes (s.mem.read s.pc.toNat) (s.mem.read (s.pc.toNat + 1))

/-- A fetch with both bytes in memory gives the word at pc. -/
theorem fetch_of_le {s : State} (hpc : s.pc.toNat ≤ 0xFFE) : s.fetch = some s.wordAtPc :=
  (fetch_eq_some s _).mpr ⟨hpc, rfl⟩

theorem raise_eq_faultEntered (s : State) (c : ErrorCause) : s.raise c = faultEntered s c := rfl

section Branches
variable {s : State}

theorem step_of_not_running (hes : s.es ≠ .running) : step s = .next s := if_neg hes

theorem step_of_fetch_outside (hes : s.es = .running) (hpc : 0xFFE < s.pc.toNat) :
    step s = .next (s.raise .addressRange) := by
  rw [step, if_pos hes, (fetch_eq_none s).mpr hpc]

theorem step_of_decoded {i : Instr} (hes : s.es = .running) (hpc : s.pc.toNat ≤ 0xFFE)
    (hi : decodeWord s.wordAtPc = some i) : step s = exec i s := by
  simp only [step, if_pos hes, fetch_of_le hpc, hi]

theorem step_of_unknown (hes : s.es = .running) (hpc : s.pc.toNat ≤ 0xFFE) (hi : decodeWord s.wordAtPc = none) :
    step s = .next s.advance := by
  simp only [step, if_pos hes, fetch_of_le hpc, hi]
  rfl

/-- All that a Step can do: nothing outside RUNNING; a fetch fault; the advance past an unknown word; the meaning of the
instruction at pc. -/
theorem step_cases (s : State) :
    (s.es ≠ .running ∧ step s = .next s) ∨
    (s.es = .running ∧ 0xFFE < s.pc.toNat ∧ step s = .next (s.raise .addressRange)) ∨
    (s.es = .running ∧ s.pc.toNat ≤ 0xFFE ∧ step s = .next s.advance) ∨
    (s.es = .running ∧ s.pc.toNat ≤ 0xFFE ∧ ∃ i, decodeWord s.wordAtPc = some i ∧ step s = exec i s) := by
  by_cases hes : s.es = .running
  · rcases Nat.lt_or_ge 0xFFE s.pc.toNat with hpc | hpc
    · exact .inr (.inl ⟨hes, hpc, step_of_fetch_outside hes hpc⟩)
    · cases hi : decodeWord s.wordAtPc with
      | none => exact .inr (.inr (.inl ⟨hes, hpc, step_of_unknown hes hpc hi⟩))
      | some i => exact .inr (.inr (.inr ⟨hes, hpc, i, rfl, step_of_decoded hes hpc hi⟩))
  · exact .inl ⟨hes, step_of_not_running hes⟩

end Branches

/-! ### The obligations -/

/-- Settles O6: the fetch gives the word at pc, and the decoder its instruction. -/
theorem stepRunsTheDecodedInstruction : Obligations.StepRunsTheDecodedInstruction :=
  fun _ _ hes hpc hi => step_of_decoded hes hpc hi

/-- Settles O7: the branch of an unknown word only advances. -/
theorem unknownWordOnlyAdvancesPc : Obligations.UnknownWordOnlyAdvancesPc :=
  fun s hes hpc hi => ⟨s.advance, step_of_unknown hes hpc hi, npc_toNat s, onlyRegsAndPc_setPc s s.npc⟩

/-- Settles O8: none of the three states is RUNNING, which a Step tests first. -/
theorem stepIsNoOpUnlessRunning : Obligations.StepIsNoOpUnlessRunning := by
  rintro s (hes | hes | hes) <;> exact step_of_not_running (by rw [hes]; decide)

/-- Settles O9: the fetch fails and the Step raises the fault. -/
theorem fetchOutsideMemoryFaults : Obligations.FetchOutsideMemoryFaults :=
  fun _ hes hpc => step_of_fetch_outside hes hpc

/-- Two bytes stored at `a` and `a + 1` within memory are read back there as one word. -/
theorem word_of_two_writes (m : Memory) (a : Nat) (hi lo : Byte) (h : a ≤ 0xFFE) :
    wordOfBytes (((m.write a hi).write (a + 1) lo).read a) (((m.write a hi).write (a + 1) lo).read (a + 1))
      = wordOfBytes hi lo := by
  have ha : a < Config.memSize := by simp only [Config.memSize]; omega
  have ha' : a + 1 < Config.memSize := by simp only [Config.memSize]; omega
  simp [read_write, ha, ha']

/-- Settles O10: the two bytes are read back at pc (`word_of_two_writes`), and what they decode to is executed. -/
theorem storedWordIsExecutedByTheNextStep : Obligations.StoredWordIsExecutedByTheNextStep := by
  intro s hi lo i hes hpc hdecode
  refine step_of_decoded hes hpc ?_
  rw [State.wordAtPc, word_of_two_writes s.mem s.pc.toNat hi lo hpc]
  exact hdecode

/-- A settled state is RUNNING, and the word at its pc a jump to pc. -/
theorem jump_to_pc_of_hasSettled {s : State} (h : hasSettled s = true) :
    ∃ nnn, s.es = .running ∧ s.pc.toNat ≤ 0xFFE ∧ decodeWord s.wordAtPc = some (.jp nnn) ∧ addrOf nnn = s.pc := by
  unfold hasSettled at h
  split at h
  case h_2 => cases h
  case h_1 op hfetch =>
    obtain ⟨hpc, rfl⟩ := (fetch_eq_some s op).mp hfetch
    split at h
    case h_2 => cases h
    case h_1 nnn hi =>
      obtain ⟨hes, hnnn⟩ := of_decide_eq_true h
      exact ⟨nnn, hes, hpc, hi, hnnn⟩

/-- Settles O53: the Step assigns pc the value it has. -/
theorem settledProgramIsUnchangedByAStep : Obligations.SettledProgramIsUnchangedByAStep := by
  intro s h
  obtain ⟨nnn, hes, hpc, hi, hnnn⟩ := jump_to_pc_of_hasSettled h
  rw [step_of_decoded hes hpc hi, exec_jp, hnnn]
  rfl

end Sys2Proof.Machine
end

section
/-!
PROOFS. What each instruction does that no part above has said: one equation per instruction, or one for each branch of it.
-/

namespace Sys2Proof.Machine

variable {s : State}

/-! ### Calls and returns (R101, R103, R171, R172) -/

theorem exec_call_of_room (nnn : Addr12) (h : s.sp.val < 16) : exec (.call nnn) s =
    .next { s with stack := s.stack.set s.sp.val s.npc h, sp := ⟨s.sp.val + 1, by omega⟩, pc := addrOf nnn } := by
  refine (if_pos h).trans ?_
  rw [push_of_room s s.npc h]
  rfl

theorem exec_call_of_full (nnn : Addr12) (h : s.sp.val = 16) : exec (.call nnn) s = .next (s.raise .stackOverflow) :=
  if_neg (by rw [h]; decide)

theorem exec_ret_of_pos (h : 0 < s.sp.val) :
    exec .ret s = .next (s.drop.setPc (s.stack[s.sp.val - 1]'(by omega))) := by
  rw [exec, execRet, top?_of_pos s h]

theorem exec_ret_of_empty (h : s.sp.val = 0) : exec .ret s = .next (s.raise .stackUnderflow) := by
  rw [exec, execRet, top?_of_empty s h]

/-! ### Register file and ALU (R128 to R131) -/

variable (s) (x y : Reg)

theorem exec_subReg : exec (.subReg x y) s =
    .next (s.flagThenResult x (subResult (s.reg x) (s.reg y)) (noBorrow (s.reg x) (s.reg y))).advance := rfl

theorem exec_subnReg : exec (.subnReg x y) s =
    .next (s.flagThenResult x (subResult (s.reg y) (s.reg x)) (noBorrow (s.reg y) (s.reg x))).advance := rfl

theorem exec_shrReg : exec (.shrReg x y) s =
    .next (s.flagThenResult x (shrResult (s.reg y)) (shrOut (s.reg y))).advance := rfl

theorem exec_shlReg : exec (.shlReg x y) s =
    .next (s.flagThenResult x (shlResult (s.reg y)) (shlOut (s.reg y))).advance := rfl

/-! ### The address register, loads and stores (R142 to R145, R173) -/

theorem exec_ldF : exec (.ldF x) s = .next (s.setI (glyphAddr (s.reg x))).advance := rfl

variable {s} {x y}

theorem exec_ldB_of_range (h : s.i.toNat + 2 ≤ 0xFFF) :
    exec (.ldB x) s = .next (s.storeBytes s.i.toNat (decimalDigits (s.reg x))).advance :=
  if_pos ((inMemory_iff s.i 3).mpr (by omega))

theorem exec_ldB_outside (h : 0xFFF < s.i.toNat + 2) : exec (.ldB x) s = .next (s.raise .addressRange) :=
  if_neg fun hin => by have := (inMemory_iff s.i 3).mp hin; omega

/-- A transfer of `V0` to `Vx` lies in memory exactly when its last byte does. -/
theorem inMemory_transferCount_iff : inMemory s.i (transferCount x) = true ↔ s.i.toNat + x.toNat ≤ 0xFFF := by
  rw [inMemory_iff, transferCount]
  omega

theorem exec_storeRegs_of_range (h : s.i.toNat + x.toNat ≤ 0xFFF) : exec (.storeRegs x) s =
    .next ((s.storeBytes s.i.toNat (s.regsUpTo x)).setI (s.iAfterTransfer x)).advance :=
  if_pos (inMemory_transferCount_iff.mpr h)

theorem exec_storeRegs_outside (h : 0xFFF < s.i.toNat + x.toNat) :
    exec (.storeRegs x) s = .next (s.raise .addressRange) :=
  if_neg fun hin => Nat.not_le.mpr h (inMemory_transferCount_iff.mp hin)

/-- The registers after the bulk load of `V0` to `Vx` from I (R145). -/
def State.loadedRegs (s : State) (x : Reg) : Vector Byte 16 :=
  (s.loadEach s.i.toNat (List.range (transferCount x))).v

theorem exec_loadRegs_of_range (h : s.i.toNat + x.toNat ≤ 0xFFF) : exec (.loadRegs x) s =
    .next (State.setI { s with v := s.loadedRegs x } (s.iAfterTransfer x)).advance := by
  have hload : s.loadEach s.i.toNat (List.range (transferCount x)) = { s with v := s.loadedRegs x } :=
    congrArg (fun t : State => { t with v := s.loadedRegs x }) (loadEach_rest s s.i.toNat (List.range (transferCount x)))
  rw [← hload]
  exact if_pos (inMemory_transferCount_iff.mpr h)

theorem exec_loadRegs_outside (h : 0xFFF < s.i.toNat + x.toNat) :
    exec (.loadRegs x) s = .next (s.raise .addressRange) :=
  if_neg fun hin => Nat.not_le.mpr h (inMemory_transferCount_iff.mp hin)

/-! ### Sprite draw (R151, R173) -/

theorem exec_drw_of_range {n : Rows} (h : n.toNat = 0 ∨ s.i.toNat + n.toNat - 1 ≤ 0xFFF) : exec (.drw x y n) s =
    .next ((s.setDisp (s.drawSprite x y n).disp).setReg flagReg (flagByte (s.drawSprite x y n).hit)).advance :=
  if_pos ((inMemory_iff s.i n.toNat).mpr (by omega))

theorem exec_drw_outside {n : Rows} (hn : 0 < n.toNat) (h : 0xFFF < s.i.toNat + n.toNat - 1) :
    exec (.drw x y n) s = .next (s.raise .addressRange) :=
  if_neg fun hin => by have := (inMemory_iff s.i n.toNat).mp hin; omega

/-! ### The keypad (R160 to R162, R174) -/

/-- A value that is the number of a key names that key. -/
theorem keyNamed?_of_eq {b : Byte} {k : Key} (h : b.toNat = k.toNat) : keyNamed? b = some k := by
  have hk : k.toNat < 16 := k.isLt
  rw [keyNamed?_of_le (by omega), h, BitVec.ofNat_toNat, BitVec.setWidth_eq]

theorem exec_skp_of_key {k : Key} (h : (s.reg x).toNat = k.toNat) : exec (.skp x) s = .next (s.skipIf (s.key k)) := by
  rw [exec, execSkp, keyNamed?_of_eq h]

theorem exec_sknp_of_key {k : Key} (h : (s.reg x).toNat = k.toNat) : exec (.sknp x) s = .next (s.skipIf (!s.key k)) := by
  rw [exec, execSknp, keyNamed?_of_eq h]

theorem exec_skp_of_no_key (h : 15 < (s.reg x).toNat) : exec (.skp x) s = .next (s.raise .keyIndexRange) := by
  rw [exec, execSkp, keyNamed?_of_gt h]

theorem exec_sknp_of_no_key (h : 15 < (s.reg x).toNat) : exec (.sknp x) s = .next (s.raise .keyIndexRange) := by
  rw [exec, execSknp, keyNamed?_of_gt h]

theorem exec_ldVxK : exec (.ldVxK x) s = .next (s.awaitKey x).advance := rfl

end Sys2Proof.Machine
end

section
/-!
PROOFS. All that an instruction can do, said once for the whole set (`exec_effect`): the fault it raises, or the shape of the
update it makes. The rules about all instructions and the invariant are read off it.
-/

namespace Sys2Proof.Machine

/-! ### The faults (R170 to R174) -/

/-- The fault an instruction raises in a state: which instruction, and when. -/
inductive Raises (s : State) : Instr → ErrorCause → Prop
  | full (nnn : Addr12) (h : s.sp.val = 16) : Raises s (.call nnn) .stackOverflow
  | empty (h : s.sp.val = 0) : Raises s .ret .stackUnderflow
  | drawOutside (x y : Reg) (n : Rows) (h : 0xFFF < s.i.toNat + n.toNat - 1) : Raises s (.drw x y n) .addressRange
  | digitsOutside (x : Reg) (h : 0xFFF < s.i.toNat + 2) : Raises s (.ldB x) .addressRange
  | storeOutside (x : Reg) (h : 0xFFF < s.i.toNat + x.toNat) : Raises s (.storeRegs x) .addressRange
  | loadOutside (x : Reg) (h : 0xFFF < s.i.toNat + x.toNat) : Raises s (.loadRegs x) .addressRange
  | skipNoKey (x : Reg) (h : 15 < (s.reg x).toNat) : Raises s (.skp x) .keyIndexRange
  | skipUnlessNoKey (x : Reg) (h : 15 < (s.reg x).toNat) : Raises s (.sknp x) .keyIndexRange

/-- Every fault names a cause. -/
theorem Raises.cause_ne_none {s : State} {i : Instr} {c : ErrorCause} (h : Raises s i c) : c ≠ .none := by
  cases h <;> decide

/-! ### The shapes of an instruction's update -/

/-- The registers an instruction may write: its destinations, and V15 where it writes the flag (R22, R25). -/
def writtenRegs (i : Instr) : List Reg := destRegs i ++ if writesFlag i then [flagReg] else []

/-- The instructions that assign I and otherwise only advance (R140 to R142). -/
inductive AssignsI : Instr → Prop
  | ldI (nnn : Addr12) : AssignsI (.ldI nnn)
  | addI (x : Reg) : AssignsI (.addI x)
  | ldF (x : Reg) : AssignsI (.ldF x)

/-- The state an instruction leaves: the fault entered, or one of the shapes of update, each with all that the rules about
every instruction need of it. Where registers are written, `w` is the register file afterwards. -/
inductive Effect (s : State) : Instr → State → Prop
  | raises {i : Instr} {c : ErrorCause} (h : Raises s i c) : Effect s i (s.raise c)
  | goes (i : Instr) (a : Word) (h : s.pc.toNat ≤ 0xFFE → a.toNat ≤ 0x10FE) : Effect s i (s.setPc a)
  | returns (h : 0 < s.sp.val) : Effect s .ret (s.drop.setPc (s.stack[s.sp.val - 1]'(by omega)))
  | calls (nnn : Addr12) (h : s.sp.val < 16) : Effect s (.call nnn)
      { s with stack := s.stack.set s.sp.val s.npc h, sp := ⟨s.sp.val + 1, by omega⟩, pc := addrOf nnn }
  | writesRegs (i : Instr) (w : Vector Byte 16) (h : RegsKeptExcept (writtenRegs i) s { s with v := w }) :
      Effect s i (State.advance { s with v := w })
  | draws (x : Reg) (kk : Byte) (w : Vector Byte 16) (h : RegsKeptExcept (writtenRegs (.rnd x kk)) s { s with v := w }) :
      Effect s (.rnd x kk) (State.nextDraw { s with v := w }).advance
  | assignsI {i : Instr} (a : Word) (h : AssignsI i) : Effect s i (s.setI a).advance
  | clears : Effect s .cls (s.setDisp Display.clear).advance
  | drawsSprite (x y : Reg) (n : Rows) (d : Display) (w : Vector Byte 16)
      (h : RegsKeptExcept (writtenRegs (.drw x y n)) s { s with v := w }) :
      Effect s (.drw x y n) (State.advance { s with v := w, disp := d })
  | waits (x : Reg) : Effect s (.ldVxK x) (s.awaitKey x).advance
  | writesDT (x : Reg) : Effect s (.ldDTVx x) (s.setDT (s.reg x)).advance
  | writesST (x : Reg) : Effect s (.ldSTVx x) (s.setST (s.reg x)).advance
  | storesDigits (x : Reg) : Effect s (.ldB x) (s.storeBytes s.i.toNat (decimalDigits (s.reg x))).advance
  | storesRegs (x : Reg) :
      Effect s (.storeRegs x) ((s.storeBytes s.i.toNat (s.regsUpTo x)).setI (s.iAfterTransfer x)).advance
  | loadsRegs (x : Reg) (w : Vector Byte 16) (h : RegsKeptExcept (writtenRegs (.loadRegs x)) s { s with v := w }) :
      Effect s (.loadRegs x) (State.setI { s with v := w } (s.iAfterTransfer x)).advance

/-! ### Every instruction has one of them -/

section Shapes
variable {s : State} {i : Instr} {x : Reg} {b : Byte} {c : Bool}

/-- A skip goes at most to 0x1002. -/
theorem effect_skipIf (c : Bool) (h : exec i s = .next (s.skipIf c)) : ∃ t, exec i s = .next t ∧ Effect s i t := by
  refine ⟨_, h, .goes i _ fun hpc => ?_⟩
  have hskip := skipIf_pc_toNat s c
  rw [State.skipIf_eq, State.setPc_pc] at hskip
  rw [hskip]
  split <;> omega

/-- A jump goes where its 12-bit target, with at most a byte added, says. -/
theorem effect_jump {a : Word} (ha : a.toNat ≤ 0x10FE) (h : exec i s = .next (s.setPc a)) :
    ∃ t, exec i s = .next t ∧ Effect s i t := ⟨_, h, .goes i a fun _ => ha⟩

theorem effect_setReg (hdest : destRegs i = [x]) (h : exec i s = .next (s.setReg x b).advance) :
    ∃ t, exec i s = .next t ∧ Effect s i t := by
  refine ⟨_, h, .writesRegs i (s.setReg x b).v fun r hr => ?_⟩
  refine regsKeptExcept_setReg s x b r fun hx => hr ?_
  rw [writtenRegs, hdest]
  exact List.mem_append_left _ hx

/-- Flag first, result second keeps every register but these two. -/
theorem regsKeptExcept_flagThenResult (s : State) (x : Reg) (b : Byte) (c : Bool) :
    RegsKeptExcept [x, flagReg] s (s.flagThenResult x b c) := by
  intro r hr
  obtain ⟨hx, hflag⟩ : r ≠ x ∧ r ≠ flagReg := by simpa using hr
  rw [reg_flagThenResult, if_neg hx, if_neg hflag]

theorem effect_resultThenFlag (hregs : writtenRegs i = [x, flagReg])
    (h : exec i s = .next (s.resultThenFlag x b c).advance) : ∃ t, exec i s = .next t ∧ Effect s i t :=
  ⟨_, h, .writesRegs i (s.resultThenFlag x b c).v (hregs ▸ regsKeptExcept_resultThenFlag s x b c)⟩

theorem effect_flagThenResult (hregs : writtenRegs i = [x, flagReg])
    (h : exec i s = .next (s.flagThenResult x b c).advance) : ∃ t, exec i s = .next t ∧ Effect s i t :=
  ⟨_, h, .writesRegs i (s.flagThenResult x b c).v (hregs ▸ regsKeptExcept_flagThenResult s x b c)⟩

theorem effect_raise {e : ErrorCause} (hraises : Raises s i e) (h : exec i s = .next (s.raise e)) :
    ∃ t, exec i s = .next t ∧ Effect s i t := ⟨_, h, .raises hraises⟩

/-- A bulk load writes no register above `Vx`. -/
theorem regsKeptExcept_loadedRegs (s : State) (x : Reg) :
    RegsKeptExcept (writtenRegs (.loadRegs x)) s { s with v := s.loadedRegs x } := by
  intro r hr
  have hx : x.toNat < 16 := x.isLt
  have habove : ¬ r.toNat < transferCount x := fun hle => hr <| List.mem_append_left _ <|
    List.mem_map.mpr ⟨r.toNat, List.mem_range.mpr hle, BitVec.ofNat_toNat .. ▸ BitVec.setWidth_eq ..⟩
  have hload := reg_loadEach_range s s.i.toNat (transferCount x) hx r
  rw [if_neg habove] at hload
  exact hload

end Shapes

/-- A value up to 15 is the number of a key. -/
theorem exists_key_of_le {b : Byte} (h : b.toNat ≤ 15) : ∃ k : Key, b.toNat = k.toNat :=
  ⟨BitVec.ofNat 4 b.toNat, (Nat.mod_eq_of_lt (Nat.lt_succ_of_le h)).symm⟩

/-- Every instruction answers a next state, and the state has one of the shapes of its instruction. -/
theorem exec_effect (i : Instr) (s : State) : ∃ t, exec i s = .next t ∧ Effect s i t := by
  cases i with
  | cls => exact ⟨_, exec_cls s, .clears⟩
  | ret =>
    rcases Nat.eq_zero_or_pos s.sp.val with h | h
    · exact effect_raise (.empty h) (exec_ret_of_empty h)
    · exact ⟨_, exec_ret_of_pos h, .returns h⟩
  | jp nnn => exact effect_jump (by have := nnn.isLt; rw [addrOf_toNat]; omega) (exec_jp s nnn)
  | call nnn =>
    have hsp : s.sp.val < 17 := s.sp.isLt
    rcases Nat.lt_or_ge s.sp.val 16 with h | h
    · exact ⟨_, exec_call_of_room nnn h, .calls nnn h⟩
    · have hfull : s.sp.val = 16 := by omega
      exact effect_raise (.full nnn hfull) (exec_call_of_full nnn hfull)
  | seImm x kk => exact effect_skipIf _ (exec_seImm s x kk)
  | sneImm x kk => exact effect_skipIf _ (exec_sneImm s x kk)
  | seReg x y => exact effect_skipIf _ (exec_seReg s x y)
  | ldImm x kk => exact effect_setReg rfl (exec_ldImm s x kk)
  | addImm x kk => exact effect_setReg rfl (exec_addImm s x kk)
  | ldReg x y => exact effect_setReg rfl (exec_ldReg s x y)
  | orReg x y => exact effect_resultThenFlag rfl (exec_orReg s x y)
  | andReg x y => exact effect_resultThenFlag rfl (exec_andReg s x y)
  | xorReg x y => exact effect_resultThenFlag rfl (exec_xorReg s x y)
  | addReg x y => exact effect_resultThenFlag rfl (exec_addReg s x y)
  | subReg x y => exact effect_flagThenResult rfl (exec_subReg s x y)
  | shrReg x y => exact effect_flagThenResult rfl (exec_shrReg s x y)
  | subnReg x y => exact effect_flagThenResult rfl (exec_subnReg s x y)
  | shlReg x y => exact effect_flagThenResult rfl (exec_shlReg s x y)
  | sneReg x y => exact effect_skipIf _ (exec_sneReg s x y)
  | ldI nnn => exact ⟨_, exec_ldI s nnn, .assignsI _ (.ldI nnn)⟩
  | jpV0 nnn =>
    have hnnn : nnn.toNat < 4096 := nnn.isLt
    have hv0 : (s.reg 0).toNat < 256 := (s.reg 0).isLt
    exact effect_jump (by rw [BitVec.toNat_add, addrOf_toNat, wordOf_toNat]; omega) (exec_jpV0 s nnn)
  | rnd x kk => exact ⟨_, exec_rnd s x kk, .draws x kk _ (regsKeptExcept_setReg s x _)⟩
  | drw x y n =>
    by_cases h : n.toNat = 0 ∨ s.i.toNat + n.toNat - 1 ≤ 0xFFF
    · exact ⟨_, exec_drw_of_range h, .drawsSprite x y n _ _ (regsKeptExcept_setReg s flagReg _)⟩
    · have hn : 0 < n.toNat := by omega
      have hout : 0xFFF < s.i.toNat + n.toNat - 1 := by omega
      exact effect_raise (.drawOutside x y n hout) (exec_drw_outside hn hout)
  | skp x =>
    rcases Nat.lt_or_ge 15 (s.reg x).toNat with h | h
    · exact effect_raise (.skipNoKey x h) (exec_skp_of_no_key h)
    · obtain ⟨k, hkey⟩ := exists_key_of_le h
      exact effect_skipIf _ (exec_skp_of_key hkey)
  | sknp x =>
    rcases Nat.lt_or_ge 15 (s.reg x).toNat with h | h
    · exact effect_raise (.skipUnlessNoKey x h) (exec_sknp_of_no_key h)
    · obtain ⟨k, hkey⟩ := exists_key_of_le h
      exact effect_skipIf _ (exec_sknp_of_key hkey)
  | ldVxDT x => exact effect_setReg rfl (exec_ldVxDT s x)
  | ldVxK x => exact ⟨_, exec_ldVxK, .waits x⟩
  | ldDTVx x => exact ⟨_, exec_ldDTVx s x, .writesDT x⟩
  | ldSTVx x => exact ⟨_, exec_ldSTVx s x, .writesST x⟩
  | addI x => exact ⟨_, exec_addI s x, .assignsI _ (.addI x)⟩
  | ldF x => exact ⟨_, exec_ldF s x, .assignsI _ (.ldF x)⟩
  | ldB x =>
    rcases Nat.lt_or_ge 0xFFF (s.i.toNat + 2) with h | h
    · exact effect_raise (.digitsOutside x h) (exec_ldB_outside h)
    · exact ⟨_, exec_ldB_of_range h, .storesDigits x⟩
  | storeRegs x =>
    rcases Nat.lt_or_ge 0xFFF (s.i.toNat + x.toNat) with h | h
    · exact effect_raise (.storeOutside x h) (exec_storeRegs_outside h)
    · exact ⟨_, exec_storeRegs_of_range h, .storesRegs x⟩
  | loadRegs x =>
    rcases Nat.lt_or_ge 0xFFF (s.i.toNat + x.toNat) with h | h
    · exact effect_raise (.loadOutside x h) (exec_loadRegs_outside h)
    · exact ⟨_, exec_loadRegs_of_range h, .loadsRegs x _ (regsKeptExcept_loadedRegs s x)⟩

/-- The state an instruction leaves has one of its shapes. -/
theorem effect_of_exec {i : Instr} {s t : State} (h : exec i s = .next t) : Effect s i t := by
  obtain ⟨u, hu, heffect⟩ := exec_effect i s
  obtain rfl : t = u := Host.Outcome.next.inj (h.symm.trans hu)
  exact heffect

/-! ### Rules about all instructions -/

/-- Settles O42: the two shapes that write STACK or SP are those of the two instructions excepted. -/
theorem onlyCallAndReturnTouchTheStack : Obligations.OnlyCallAndReturnTouchTheStack := by
  intro i s t h hcall hret
  cases effect_of_exec h
  case calls nnn _ => exact absurd rfl (hcall nnn)
  case returns => exact absurd rfl hret
  all_goals exact ⟨rfl, rfl⟩

/-- Settles O43: likewise for DISP. -/
theorem onlyClearAndDrawChangeTheDisplay : Obligations.OnlyClearAndDrawChangeTheDisplay := by
  intro i s t h hcls hdrw
  cases effect_of_exec h
  case clears => exact absurd rfl hcls
  case drawsSprite x y n _ _ _ => exact absurd rfl (hdrw x y n)
  all_goals rfl

/-- Settles O44: no shape writes KEYS, and the shape that writes a timer is that of the instruction excepted. -/
theorem instructionsLeaveKeypadAndTimers : Obligations.InstructionsLeaveKeypadAndTimers := by
  intro i s t h
  cases effect_of_exec h
  case writesDT x => exact ⟨rfl, fun hdt => absurd rfl (hdt x), fun _ => rfl⟩
  case writesST x => exact ⟨rfl, fun _ => rfl, fun hst => absurd rfl (hst x)⟩
  all_goals exact ⟨rfl, fun _ => rfl, fun _ => rfl⟩

/-- Settles O45: each shape that writes registers carries the bound, and every other keeps the register file. -/
theorem onlyNamedRegistersAreWritten : Obligations.OnlyNamedRegistersAreWritten := by
  intro i s t h
  cases effect_of_exec h
  case writesRegs _ hkept => exact hkept
  case draws hkept => exact hkept
  case drawsSprite hkept => exact hkept
  case loadsRegs hkept => exact hkept
  all_goals exact fun _ _ => rfl

/-- Settles O46: the shapes that write memory or I are those of the instructions excepted. -/
theorem onlyNamedInstructionsWriteMemoryAndI : Obligations.OnlyNamedInstructionsWriteMemoryAndI := by
  intro i s t h
  cases effect_of_exec h
  case storesDigits x => exact ⟨fun hldB _ => absurd rfl (hldB x), fun _ _ _ _ _ => rfl⟩
  case storesRegs x => exact ⟨fun _ hstore => absurd rfl (hstore x), fun _ _ _ hstore _ => absurd rfl (hstore x)⟩
  case loadsRegs x _ _ => exact ⟨fun _ _ => rfl, fun _ _ _ _ hload => absurd rfl (hload x)⟩
  case assignsI hi =>
    cases hi with
    | ldI nnn => exact ⟨fun _ _ => rfl, fun hldI _ _ _ _ => absurd rfl (hldI nnn)⟩
    | addI x => exact ⟨fun _ _ => rfl, fun _ haddI _ _ _ => absurd rfl (haddI x)⟩
    | ldF x => exact ⟨fun _ _ => rfl, fun _ _ hldF _ _ => absurd rfl (hldF x)⟩
  all_goals exact ⟨fun _ _ => rfl, fun _ _ _ _ _ => rfl⟩

/-! ### ES and ERR -/

/-- An instruction either leaves ES and ERR as they are, or is Fx0A and begins a wait, or enters a fault. -/
theorem Effect.es_cases {s t : State} {i : Instr} (h : Effect s i t) :
    (t.es = s.es ∧ t.err = s.err) ∨ (t.es = .awaitingKey ∧ t.err = s.err ∧ ∃ x, i = .ldVxK x) ∨
      ∃ c, Raises s i c ∧ t = s.raise c := by
  cases h
  case raises c hraises => exact .inr (.inr ⟨c, hraises, rfl⟩)
  case waits x => exact .inr (.inl ⟨rfl, rfl, x, rfl⟩)
  all_goals exact .inl ⟨rfl, rfl⟩

/-- An instruction that takes RUNNING to HALTED_ERROR entered the fault of its cause. -/
theorem raises_of_exec_halts {i : Instr} {s t : State} (hes : s.es = .running) (h : exec i s = .next t)
    (ht : t.es = .haltedError) : ∃ c, Raises s i c ∧ t = s.raise c := by
  rcases (effect_of_exec h).es_cases with ⟨hsame, -⟩ | ⟨hwait, -⟩ | hfault
  · rw [hsame, hes] at ht; cases ht
  · rw [hwait] at ht; cases ht
  · exact hfault

/-- Settles O41: the instruction and the condition of each fault are those of `Raises`. -/
theorem eachFaultHasItsInstructions : Obligations.EachFaultHasItsInstructions := by
  intro i s t hes h ht
  obtain ⟨c, hraises, rfl⟩ := raises_of_exec_halts hes h ht
  cases hraises with
  | full nnn hsp => exact .inl ⟨rfl, hsp, nnn, rfl⟩
  | empty hsp => exact .inr (.inl ⟨rfl, hsp, rfl⟩)
  | drawOutside x y n => exact .inr (.inr (.inl ⟨rfl, .inl ⟨x, y, n, rfl⟩⟩))
  | digitsOutside x => exact .inr (.inr (.inl ⟨rfl, .inr (.inl ⟨x, rfl⟩)⟩))
  | storeOutside x => exact .inr (.inr (.inl ⟨rfl, .inr (.inr (.inl ⟨x, rfl⟩))⟩))
  | loadOutside x => exact .inr (.inr (.inl ⟨rfl, .inr (.inr (.inr ⟨x, rfl⟩))⟩))
  | skipNoKey x => exact .inr (.inr (.inr ⟨rfl, .inl ⟨x, rfl⟩⟩))
  | skipUnlessNoKey x => exact .inr (.inr (.inr ⟨rfl, .inr ⟨x, rfl⟩⟩))

/-! ### The same for a Step -/

/-- The state a Step leaves: the old one outside RUNNING; from RUNNING the fetch fault, the advance past an unknown word, or
what the instruction at pc leaves. -/
theorem step_next_cases {s t : State} (h : step s = .next t) :
    (s.es ≠ .running ∧ t = s) ∨
    (s.es = .running ∧ t = s.raise .addressRange) ∨
    (s.es = .running ∧ s.pc.toNat ≤ 0xFFE ∧ t = s.advance) ∨
    (s.es = .running ∧ s.pc.toNat ≤ 0xFFE ∧ ∃ i, decodeWord s.wordAtPc = some i ∧ exec i s = .next t) := by
  rcases step_cases s with ⟨hes, hs⟩ | ⟨hes, -, hs⟩ | ⟨hes, hpc, hs⟩ | ⟨hes, hpc, i, hi, hs⟩ <;> rw [h] at hs
  · exact .inl ⟨hes, Host.Outcome.next.inj hs⟩
  · exact .inr (.inl ⟨hes, Host.Outcome.next.inj hs⟩)
  · exact .inr (.inr (.inl ⟨hes, hpc, Host.Outcome.next.inj hs⟩))
  · exact .inr (.inr (.inr ⟨hes, hpc, i, hi, hs.symm⟩))

/-- Settles O11: three branches of a Step answer a state themselves, and an instruction always does (`exec_effect`). -/
theorem everyStepAnswersANextState : Obligations.EveryStepAnswersANextState := by
  intro s
  rcases step_cases s with ⟨-, hs⟩ | ⟨-, -, hs⟩ | ⟨-, -, hs⟩ | ⟨-, -, i, -, hs⟩
  · exact ⟨_, hs⟩
  · exact ⟨_, hs⟩
  · exact ⟨_, hs⟩
  · obtain ⟨t, ht, -⟩ := exec_effect i s
    exact ⟨t, hs.trans ht⟩

/-- Settles O40: a Step that halts entered the fetch's fault or the instruction's, and fault entry writes ES and ERR alone. -/
theorem faultEntryCommitsNothingElse : Obligations.FaultEntryCommitsNothingElse := by
  intro s t hes h ht
  rcases step_next_cases h with ⟨hnot, -⟩ | ⟨-, rfl⟩ | ⟨-, -, rfl⟩ | ⟨-, -, i, -, hexec⟩
  · exact absurd hes hnot
  · exact ⟨_, by decide, raise_eq_faultEntered s _⟩
  · rw [State.advance_eq, State.setPc_es, hes] at ht; cases ht
  · obtain ⟨c, hraises, rfl⟩ := raises_of_exec_halts hes hexec ht
    exact ⟨c, hraises.cause_ne_none, raise_eq_faultEntered s c⟩

end Sys2Proof.Machine
end

section
/-!
PROOFS. The events of a run other than Step (60_exceptions.md): what Tick, KeyDown and KeyUp do, and what each leaves unchanged.
-/

namespace Sys2Proof.Machine

variable {s : State}

/-! ### Tick (R180) -/

theorem tick_of_stopped (h : s.es = .stopped) : tick s = s := if_pos h

theorem tick_of_not_stopped (h : s.es ≠ .stopped) : tick s = (s.setDT (countDown s.dt)).setST (countDown s.st) := if_neg h

/-- Settles O47: each timer is counted down (`countDown_toNat`), and with both put back the state is the old one. -/
theorem tickCountsBothTimersDown : Obligations.TickCountsBothTimersDown := by
  refine fun s => ⟨fun hes => ?counts, fun hes => tick_of_stopped hes⟩
  rw [tick_of_not_stopped hes]
  exact ⟨countDown_toNat s.dt, countDown_toNat s.st, rfl⟩

/-- In every ES a Tick changes at most the timers. -/
theorem tick_eq (s : State) : ∃ d b, tick s = (s.setDT d).setST b := by
  by_cases hes : s.es = .stopped
  · exact ⟨s.dt, s.st, tick_of_stopped hes⟩
  · exact ⟨_, _, tick_of_not_stopped hes⟩

/-! ### KeyDown (R181) -/

variable {k : Key}

theorem keyDown_of_stopped (h : s.es = .stopped) : keyDown k s = s := if_pos h

theorem keyDown_of_not_stopped (h : s.es ≠ .stopped) : keyDown k s = s.setKey k true := if_neg h

theorem key_setKey_same (s : State) (k : Key) (b : Bool) : (s.setKey k b).key k = b := by
  rw [key_setKey, if_pos rfl]

theorem key_setKey_ne (s : State) {k q : Key} (b : Bool) (h : q ≠ k) : (s.setKey k b).key q = s.key q := by
  rw [key_setKey, if_neg (Ne.symm h)]

/-- Settles O48: outside STOPPED the event is one write of KEYS. -/
theorem keyDownOnlySetsTheLevel : Obligations.KeyDownOnlySetsTheLevel := by
  refine fun s k => ⟨fun hes => ?sets, fun hes => keyDown_of_stopped hes⟩
  rw [keyDown_of_not_stopped hes]
  exact ⟨key_setKey_same s k true, fun q hq => key_setKey_ne s true hq, rfl⟩

/-- In every ES a KeyDown changes at most KEYS. -/
theorem keyDown_eq (s : State) (k : Key) : ∃ levels, keyDown k s = { s with keys := levels } := by
  by_cases hes : s.es = .stopped
  · exact ⟨s.keys, keyDown_of_stopped hes⟩
  · exact ⟨_, keyDown_of_not_stopped hes⟩

/-! ### KeyUp (R182) -/

theorem keyUp_ignored (h : s.es = .stopped ∨ s.key k = false) : keyUp k s = s := by
  unfold keyUp
  split_ifs with hes hkey
  · rfl
  · rfl
  · exact absurd h (not_or.mpr ⟨hes, hkey⟩)
  · exact absurd h (not_or.mpr ⟨hes, hkey⟩)

theorem keyUp_releases (hes : s.es ≠ .stopped) (hkey : s.key k = true) (hwait : s.es ≠ .awaitingKey) :
    keyUp k s = s.setKey k false := by
  rw [keyUp, if_neg hes, if_neg (Bool.not_eq_false _ ▸ hkey), if_neg hwait]

theorem keyUp_ends_wait (hkey : s.key k = true) (hwait : s.es = .awaitingKey) :
    keyUp k s = (s.setKey k false).endWait k := by
  have hes : s.es ≠ .stopped := by rw [hwait]; decide
  rw [keyUp, if_neg hes, if_neg (Bool.not_eq_false _ ▸ hkey), if_pos hwait]

/-- All that a KeyUp can do: nothing; the release of the key; the release and the end of the wait. -/
theorem keyUp_cases (k : Key) (s : State) :
    ((s.es = .stopped ∨ s.key k = false) ∧ keyUp k s = s) ∨
    (s.es ≠ .awaitingKey ∧ keyUp k s = s.setKey k false) ∨
    (s.es = .awaitingKey ∧ s.key k = true ∧ keyUp k s = (s.setKey k false).endWait k) := by
  by_cases hignored : s.es = .stopped ∨ s.key k = false
  · exact .inl ⟨hignored, keyUp_ignored hignored⟩
  · obtain ⟨hes, hup⟩ := not_or.mp hignored
    have hkey : s.key k = true := by simpa using hup
    by_cases hwait : s.es = .awaitingKey
    · exact .inr (.inr ⟨hwait, hkey, keyUp_ends_wait hkey hwait⟩)
    · exact .inr (.inl ⟨hwait, keyUp_releases hes hkey hwait⟩)

/-- The end of a wait writes the key's number. -/
theorem reg_endWait (s : State) (k : Key) : ((s.endWait k).reg s.waitReg).toNat = k.toNat := by
  have hk : k.toNat < 16 := k.isLt
  rw [State.endWait_eq, State.setES_reg, reg_setReg_same, BitVec.toNat_setWidth]
  omega

/-- Settles O49: the release is one write of KEYS, and the end of a wait one register write and one of ES after it. -/
theorem keyUpEndsTheWait : Obligations.KeyUpEndsTheWait := by
  refine fun s k => ⟨keyUp_ignored, fun hes hkey => ?released⟩
  by_cases hwait : s.es = .awaitingKey
  · rw [keyUp_ends_wait hkey hwait]
    exact ⟨key_setKey_same s k false, fun q hq => key_setKey_ne s false hq, fun hnot => absurd hwait hnot,
      fun _ => ⟨rfl, reg_endWait (s.setKey k false) k, regsKeptExcept_setReg s s.waitReg _, rfl⟩⟩
  · rw [keyUp_releases hes hkey hwait]
    exact ⟨key_setKey_same s k false, fun q hq => key_setKey_ne s false hq, fun _ => rfl, fun h => absurd h hwait⟩

/-! ### ES under each event (R194) -/

/-- A Tick keeps ES and ERR. -/
theorem tick_es_err (s : State) : (tick s).es = s.es ∧ (tick s).err = s.err := by
  obtain ⟨d, b, h⟩ := tick_eq s
  rw [h]
  exact ⟨rfl, rfl⟩

/-- A KeyDown keeps ES and ERR. -/
theorem keyDown_es_err (k : Key) (s : State) : (keyDown k s).es = s.es ∧ (keyDown k s).err = s.err := by
  obtain ⟨levels, h⟩ := keyDown_eq s k
  rw [h]
  exact ⟨rfl, rfl⟩

/-- Outside AWAITING_KEY a KeyUp keeps ES and ERR. -/
theorem keyUp_es_err (k : Key) (h : s.es ≠ .awaitingKey) : (keyUp k s).es = s.es ∧ (keyUp k s).err = s.err := by
  rcases keyUp_cases k s with ⟨-, hk⟩ | ⟨-, hk⟩ | ⟨hwait, -⟩
  · rw [hk]; exact ⟨rfl, rfl⟩
  · rw [hk]; exact ⟨rfl, rfl⟩
  · exact absurd hwait h

/-- In AWAITING_KEY a KeyUp resumes exactly if its key is down. -/
theorem keyUp_es_of_awaiting (k : Key) (h : s.es = .awaitingKey) :
    (keyUp k s).es = if s.key k then .running else .awaitingKey := by
  cases hkey : s.key k
  · rw [keyUp_ignored (.inr hkey), h]; rfl
  · rw [keyUp_ends_wait hkey h]; rfl

/-- From RUNNING a Step stays RUNNING, or executed Fx0A and waits, or halted. -/
theorem step_es_of_running {t : State} (hes : s.es = .running) (h : step s = .next t) :
    t.es = .running ∨ (t.es = .awaitingKey ∧ ∃ x, decodeWord s.wordAtPc = some (.ldVxK x)) ∨ t.es = .haltedError := by
  rcases step_next_cases h with ⟨hnot, -⟩ | ⟨-, rfl⟩ | ⟨-, -, rfl⟩ | ⟨-, -, i, hi, hexec⟩
  · exact absurd hes hnot
  · exact .inr (.inr rfl)
  · exact .inl hes
  · rcases (effect_of_exec hexec).es_cases with ⟨hsame, -⟩ | ⟨hwait, -, x, rfl⟩ | ⟨c, -, rfl⟩
    · exact .inl (hsame.trans hes)
    · exact .inr (.inl ⟨hwait, x, hi⟩)
    · exact .inr (.inr rfl)

/-- A Step outside RUNNING leaves the state as it is. -/
theorem eq_of_step_of_not_running {t : State} (hes : s.es ≠ .running) (h : step s = .next t) : t = s :=
  (Host.Outcome.next.inj ((step_of_not_running hes).symm.trans h)).symm

/-- The table's default entry: no event but Quit, a Step in RUNNING and a KeyUp in AWAITING_KEY need move ES. -/
theorem esAllowed_same {e : Event} (hquit : e ≠ .quit) (hstep : e = .step → s.es ≠ .running)
    (hkeyUp : ∀ k, e = .keyUp k → s.es ≠ .awaitingKey) : esAllowed s e s.es := by
  unfold esAllowed
  split
  case h_1 => exact absurd rfl hquit
  case h_2 hes => exact absurd hes (hstep rfl)
  case h_3 k hes => exact absurd hes (hkeyUp k rfl)
  case h_4 => rfl

/-- Settles O51: each event's ES is one the table's entry for it allows. -/
theorem executionStateFollowsItsTable : Obligations.ExecutionStateFollowsItsTable := by
  intro e s t h
  cases e with
  | step =>
    by_cases hes : s.es = .running
    · have hstep := step_es_of_running hes h
      constructor
      · simp only [esAllowed, hes]
        exact hstep.imp_right fun hw => hw.imp_left And.left
      · intro _ _ hwait
        rcases hstep with hrun | ⟨-, hx⟩ | hhalt
        · rw [hrun] at hwait; cases hwait
        · exact hx
        · rw [hhalt] at hwait; cases hwait
    · obtain rfl := eq_of_step_of_not_running hes h
      exact ⟨esAllowed_same (by simp) (fun _ => hes) (by simp), fun _ hrun => absurd hrun hes⟩
  | tick =>
    cases h
    refine ⟨?_, by simp⟩
    rw [(tick_es_err s).1]
    exact esAllowed_same (by simp) (by simp) (by simp)
  | keyDown k =>
    cases h
    refine ⟨?_, by simp⟩
    rw [(keyDown_es_err k s).1]
    exact esAllowed_same (by simp) (by simp) (by simp)
  | keyUp k =>
    cases h
    refine ⟨?_, by simp⟩
    by_cases hwait : s.es = .awaitingKey
    · simp only [esAllowed, hwait]
      exact keyUp_es_of_awaiting k hwait
    · rw [(keyUp_es_err k hwait).1]
      exact esAllowed_same (by simp) (by simp) fun _ _ => hwait
  | quit =>
    cases h
    exact ⟨quit_es s, by simp⟩

/-! ### Sequences of events (R177, R195) -/

/-- A sequence is its first event and the rest. -/
theorem deliverAll_cons {e : Event} {es : List Event} {s t : State} (h : deliverAll (e :: es) s = .next t) :
    ∃ u, deliver e s = .next u ∧ deliverAll es u = .next t := by
  rw [deliverAll] at h
  split at h
  case h_1 u hu => exact ⟨u, hu, h⟩
  case h_2 => cases h
  case h_3 => cases h

/-- What every event keeps, every sequence of events keeps. -/
theorem deliverAll_keeps {P : State → Prop} (hkeeps : ∀ e s t, P s → deliver e s = .next t → P t) (es : List Event)
    {s t : State} (hs : P s) (h : deliverAll es s = .next t) : P t := by
  induction es generalizing s with
  | nil => exact Host.Outcome.next.inj h ▸ hs
  | cons e es ih =>
    obtain ⟨u, hu, ht⟩ := deliverAll_cons h
    exact ih (hkeeps e s u hs hu) ht

/-- In an ended run an event either keeps ES or stops the run, and keeps ERR. -/
theorem deliver_of_hasEnded (e : Event) {s t : State} (hend : hasEnded s = true) (h : deliver e s = .next t) :
    (t.es = s.es ∨ t.es = .stopped) ∧ t.err = s.err := by
  have hes := (hasEnded_iff s).mp hend
  have hrun : s.es ≠ .running := by rcases hes with h | h <;> rw [h] <;> decide
  have hwait : s.es ≠ .awaitingKey := by rcases hes with h | h <;> rw [h] <;> decide
  cases e with
  | step => obtain rfl := eq_of_step_of_not_running hrun h; exact ⟨.inl rfl, rfl⟩
  | tick => cases h; exact (tick_es_err s).imp_left .inl
  | keyDown k => cases h; exact (keyDown_es_err k s).imp_left .inl
  | keyUp k => cases h; exact (keyUp_es_err k hwait).imp_left .inl
  | quit => cases h; exact ⟨.inr (quit_es s), rfl⟩

/-- Settles O52: every event keeps "ended, with the old ERR" (`deliver_of_hasEnded`). -/
theorem endedRunsStayEnded : Obligations.EndedRunsStayEnded := by
  intro es s t hend h
  refine deliverAll_keeps (P := fun u => hasEnded u = true ∧ u.err = s.err) ?_ es ⟨hend, rfl⟩ h
  rintro e u w ⟨hu, herr⟩ hw
  obtain ⟨hes, hsame⟩ := deliver_of_hasEnded e hu hw
  refine ⟨(hasEnded_iff w).mpr ?_, hsame.trans herr⟩
  rcases hes with hes | hes
  · rw [hes]; exact (hasEnded_iff u).mp hu
  · exact .inr hes

end Sys2Proof.Machine
end

section
/-!
PROOFS. The invariant (10_state.md): an instruction keeps each of its four parts, and so do a Step, every event, and every
sequence of events.
-/

namespace Sys2Proof.Machine

variable {s t : State} {i : Instr}

/-! ### What an instruction keeps -/

/-- Only the two stores write memory, and a store keeps the canonical form. -/
theorem Effect.memWf (h : Effect s i t) (hwf : s.mem.wf = true) : t.mem.wf = true := by
  cases h
  case storesDigits => exact wf_writeBytes _ _ _ hwf
  case storesRegs => exact wf_writeBytes _ _ _ hwf
  all_goals exact hwf

/-- After a fetch the next pc is at most 0x1000. -/
theorem npc_le (hpc : s.pc.toNat ≤ 0xFFE) : s.npc.toNat ≤ 0x1000 := by
  rw [npc_toNat]
  omega

/-- A fault keeps pc, a jump or skip is bounded by its shape, a return by the stack, a call by its 12-bit target, and every other
instruction advances. -/
theorem Effect.pcBounded (h : Effect s i t) (hpc : s.pc.toNat ≤ 0xFFE) (hstack : StackBounded s) : PcBounded t := by
  have hnpc : s.npc.toNat ≤ 0x10FE := (npc_le hpc).trans (by decide)
  cases h
  case raises => exact hpc.trans (by decide)
  case goes ha => exact ha hpc
  case returns => exact (hstack _ _).trans (by decide)
  case calls nnn _ =>
    have hnnn : nnn.toNat < 4096 := nnn.isLt
    have htarget : (addrOf nnn).toNat ≤ 0x10FE := by rw [addrOf_toNat]; omega
    exact htarget
  all_goals exact hnpc

/-- A call writes one slot, with the pc after it; every other instruction keeps all slots. -/
theorem Effect.stackBounded (h : Effect s i t) (hpc : s.pc.toNat ≤ 0xFFE) (hstack : StackBounded s) : StackBounded t := by
  cases h
  case calls nnn hsp =>
    intro j hj
    rw [Vector.getElem_set]
    split
    · exact npc_le hpc
    · exact hstack j hj
  all_goals exact hstack

/-- From RUNNING a fault enters HALTED_ERROR with a cause, and every other instruction keeps ERR, which is none. -/
theorem Effect.causeCoherent (h : Effect s i t) (hes : s.es = .running) (hcause : CauseCoherent s) : CauseCoherent t := by
  have herr : s.err = .none := hcause.2 (.inl hes)
  rcases h.es_cases with ⟨hsame, herr'⟩ | ⟨hwait, herr', -⟩ | ⟨c, hraises, rfl⟩
  · exact ⟨fun hhalt => absurd (hhalt.symm.trans (hsame.trans hes)) (by decide), fun _ => herr'.trans herr⟩
  · exact ⟨fun hhalt => absurd (hhalt.symm.trans hwait) (by decide), fun _ => herr'.trans herr⟩
  · exact ⟨fun _ => hraises.cause_ne_none, by rintro (hrun | hwait) <;> contradiction⟩

/-- An instruction executed in a Step keeps the invariant. -/
theorem Effect.inv (h : Effect s i t) (hes : s.es = .running) (hpc : s.pc.toNat ≤ 0xFFE) (hs : Inv s) : Inv t where
  memWf := h.memWf hs.memWf
  pcBounded := h.pcBounded hpc hs.stackBounded
  stackBounded := h.stackBounded hpc hs.stackBounded
  causeCoherent := h.causeCoherent hes hs.causeCoherent

/-! ### What a Step and the other events keep -/

/-- The fetch fault keeps the invariant: it enters HALTED_ERROR with a cause. -/
theorem inv_raise_addressRange (hs : Inv s) : Inv (s.raise .addressRange) where
  memWf := hs.memWf
  pcBounded := hs.pcBounded
  stackBounded := hs.stackBounded
  causeCoherent := ⟨fun _ => (by decide : ErrorCause.addressRange ≠ .none), by rintro (hrun | hwait) <;> contradiction⟩

/-- Advancing past an unknown word keeps the invariant. -/
theorem inv_advance (hs : Inv s) (hpc : s.pc.toNat ≤ 0xFFE) : Inv s.advance where
  memWf := hs.memWf
  pcBounded := (npc_le hpc).trans (by decide)
  stackBounded := hs.stackBounded
  causeCoherent := hs.causeCoherent

/-- Settles O57: each branch of a Step keeps the invariant. -/
theorem stepKeepsTheMachineBounds : Obligations.StepKeepsTheMachineBounds := by
  intro s t hs h
  rcases step_next_cases h with ⟨-, rfl⟩ | ⟨-, rfl⟩ | ⟨-, hpc, rfl⟩ | ⟨hes, hpc, i, -, hexec⟩
  · exact hs
  · exact inv_raise_addressRange hs
  · exact inv_advance hs hpc
  · exact (effect_of_exec hexec).inv hes hpc hs

/-- A Tick writes only the timers, of which the invariant says nothing. -/
theorem inv_tick (hs : Inv s) : Inv (tick s) := by
  obtain ⟨d, b, h⟩ := tick_eq s
  rw [h]
  exact ⟨hs.memWf, hs.pcBounded, hs.stackBounded, hs.causeCoherent⟩

/-- A KeyDown writes only KEYS. -/
theorem inv_keyDown (k : Key) (hs : Inv s) : Inv (keyDown k s) := by
  obtain ⟨levels, h⟩ := keyDown_eq s k
  rw [h]
  exact ⟨hs.memWf, hs.pcBounded, hs.stackBounded, hs.causeCoherent⟩

/-- A KeyUp that ends a wait goes from one ES without a cause to another. -/
theorem inv_keyUp (k : Key) (hs : Inv s) : Inv (keyUp k s) := by
  rcases keyUp_cases k s with ⟨-, h⟩ | ⟨-, h⟩ | ⟨hwait, -, h⟩ <;> rw [h]
  · exact hs
  · exact ⟨hs.memWf, hs.pcBounded, hs.stackBounded, hs.causeCoherent⟩
  · have herr : s.err = .none := hs.causeCoherent.2 (.inr hwait)
    exact ⟨hs.memWf, hs.pcBounded, hs.stackBounded, fun hhalt => by contradiction, fun _ => herr⟩

/-- In STOPPED the invariant says nothing of ERR. -/
theorem inv_quit (hs : Inv s) : Inv (quit s) where
  memWf := hs.memWf
  pcBounded := hs.pcBounded
  stackBounded := hs.stackBounded
  causeCoherent := ⟨fun hhalt => by contradiction, by rintro (hrun | hwait) <;> contradiction⟩

/-- Settles O58: the Step by O57, each other event by its own lemma. -/
theorem everyEventKeepsTheMachineBounds : Obligations.EveryEventKeepsTheMachineBounds := by
  intro e s t hs h
  cases e with
  | step => exact stepKeepsTheMachineBounds s t hs h
  | tick => cases h; exact inv_tick hs
  | keyDown k => cases h; exact inv_keyDown k hs
  | keyUp k => cases h; exact inv_keyUp k hs
  | quit => cases h; exact inv_quit hs

/-- Settles O59: what every event keeps, every sequence keeps (`deliverAll_keeps`). -/
theorem eventsKeepTheMachineBounds : Obligations.EventsKeepTheMachineBounds :=
  fun es _ _ hs h => deliverAll_keeps everyEventKeepsTheMachineBounds es hs h

end Sys2Proof.Machine
end

section
/-!
PROOFS. Reset (70_reset_and_hazards.md): the table of reset values, and the base case of the invariant.
-/

namespace Sys2Proof.Machine

variable (font : Fin fontLen → Byte) (init : Nat → Byte) (keys : Vector Bool 16)

/-- Writing into the empty memory what an unlisted address reads as leaves it empty. -/
theorem write_nil_memDefault (a : Nat) : Memory.write [] a (memDefault a) = [] := by
  unfold Memory.write
  split
  · exact if_pos rfl
  · rfl

/-- The memory of a reset with the default arguments lists no cell. -/
theorem ofReset_default : Memory.ofReset fontByte (fun _ => 0) = [] := by
  have writes_leave_nil : ∀ addrs : List Nat,
      addrs.foldl (fun m a => Memory.write m a (resetByte fontByte (fun _ => 0) a)) [] = [] := by
    intro addrs
    induction addrs with
    | nil => rfl
    | cons a addrs ih =>
      rw [List.foldl_cons]
      exact (congrArg (List.foldl _ · addrs) (write_nil_memDefault a)).trans ih
  exact writes_leave_nil _

theorem reset_eq_resetWith : State.reset = State.resetWith fontByte (fun _ => 0) (Vector.replicate 16 false) := by
  rw [State.resetWith, ofReset_default]
  rfl

/-- Reset leaves every register 0. -/
theorem resetWith_reg (r : Reg) : (State.resetWith font init keys).reg r = 0 := Vector.getElem_replicate _

/-- Reset leaves every stack slot 0. -/
theorem resetWith_stack (j : Nat) (hj : j < 16) : (State.resetWith font init keys).stack[j]'hj = 0 :=
  Vector.getElem_replicate _

/-- Reset leaves `FONT_TABLE` at its place. -/
theorem resetWith_font (k : Fin fontLen) : (State.resetWith font init keys).mem.read (0x050 + k.val) = font k := by
  have hk : fontBase + k.val < Config.memSize := by
    have := k.isLt
    simp only [fontBase, fontLen, Config.memSize] at *
    omega
  rw [State.resetWith_mem]
  exact (read_ofReset font init _ hk).trans (resetByte_font font init k)

/-- Reset leaves `MEM_INIT` everywhere else. -/
theorem resetWith_outside (a : Nat) (ha : a < 4096) (hout : a < 0x050 ∨ 0x0A0 ≤ a) :
    (State.resetWith font init keys).mem.read a = init a := by
  have hfont : ¬(fontBase ≤ a ∧ a < fontBase + fontLen) := by
    simp only [fontBase, fontLen]
    omega
  rw [State.resetWith_mem, read_ofReset font init a ha, resetByte_outside font init hfont]

/-- Settles O55: registers, slots, memory and display by their lemmas, every other value as `State.reset` lists it. -/
theorem resetLeavesTheTableOfValues : Obligations.ResetLeavesTheTableOfValues := by
  refine ⟨?table, reset_eq_resetWith⟩
  rintro font init keys _ rfl
  exact ⟨resetWith_reg font init keys, rfl, rfl, rfl, resetWith_stack font init keys, rfl, rfl,
    resetWith_font font init keys, resetWith_outside font init keys, pixel_clear, rfl, rfl, rfl, rfl⟩

/-- The invariant holds after every reset: memory is canonical (`wf_ofReset`), pc is 0x200, each slot is 0, and a RUNNING state
has no cause. -/
theorem inv_resetWith : Inv (State.resetWith font init keys) where
  memWf := by rw [State.resetWith_mem]; exact wf_ofReset font init
  pcBounded := show Config.entry.toNat ≤ 0x10FE by decide
  stackBounded := fun j hj => by rw [resetWith_stack]; decide
  causeCoherent := ⟨fun hhalt => by contradiction, fun _ => rfl⟩

/-- Settles O56: the machine's reset is one with arguments (`reset_eq_resetWith`). -/
theorem resetMeetsTheMachineBounds : Obligations.ResetMeetsTheMachineBounds :=
  ⟨reset_eq_resetWith ▸ inv_resetWith _ _ _, inv_resetWith⟩

end Sys2Proof.Machine
end

section
/-!
PROOFS. Calls and returns (41_control_flow.md): the push of R103, the pop of R101, and their faults.
-/

namespace Sys2Proof.Machine

/-- Settles O14: with room a call writes slot SP, SP and pc; a full stack is the fault. -/
theorem callPushesTheReturnAddressOrOverflows : Obligations.CallPushesTheReturnAddressOrOverflows := by
  refine fun s nnn => ⟨fun hroom => ?pushed, exec_call_of_full nnn⟩
  have hslot : ((s.stack.set s.sp.val s.npc hroom)[s.sp.val]'hroom).toNat = (s.pc.toNat + 2) % 65536 := by
    rw [Vector.getElem_set_self, npc_toNat]
  exact ⟨_, exec_call_of_room nnn hroom, addrOf_toNat nnn, rfl, hslot, fun _ hj hne => Vector.getElem_set_ne hroom hj hne.symm,
    fun _ _ => rfl, fun _ => rfl, rfl⟩

/-- Settles O15: with a live entry a return assigns pc and SP; an empty stack is the fault. -/
theorem returnPopsTheStackOrUnderflows : Obligations.ReturnPopsTheStackOrUnderflows :=
  fun _ => ⟨fun hpos => ⟨_, exec_ret_of_pos hpos, rfl, rfl, fun _ _ => rfl, fun _ => rfl, rfl⟩, exec_ret_of_empty⟩

/-- Settles O16: the return's slot is the one the call wrote, and the call wrote no other. -/
theorem returnAfterCallResumesAfterTheCall : Obligations.ReturnAfterCallResumesAfterTheCall := by
  intro s nnn hroom
  refine ⟨_, _, exec_call_of_room nnn hroom, exec_ret_of_pos (Nat.succ_pos _), ?target, rfl, ?slots, fun _ _ => rfl,
    fun _ => rfl, rfl⟩
  case target => simp [npc_toNat]
  case slots =>
    intro j hj hlt
    exact Vector.getElem_set_ne hroom hj (Nat.ne_of_gt hlt)

end Sys2Proof.Machine
end

section
/-!
PROOFS. Subtraction and shifts (42_register_alu.md, R128 to R131), and the outcomes when V15 is an operand (R134).
-/

namespace Sys2Proof.Machine

/-! ### The flag first, then the result (R133) -/

section Shapes
variable {i : Instr} {s : State} {x r : Reg} {b : Byte} {c : Bool}

/-- An instruction that writes the flag and then a result leaves the result in its destination and, unless that is V15, the flag
in V15; it adds 2 to pc and changes nothing else. -/
theorem exec_writes_flag_then_dest (h : exec i s = .next (s.flagThenResult x b c).advance) :
    ∃ t, exec i s = .next t ∧ t.reg x = b ∧ (x ≠ flagReg → t.reg flagReg = flagByte c) ∧ t.pc = s.pc + 2 ∧
      OnlyRegsAndPc [x, flagReg] s t := by
  refine ⟨_, h, ?dest, fun hx => ?flag, rfl, regsKeptExcept_flagThenResult s x b c, rfl, fun _ => rfl, rfl⟩
  case dest => rw [advance_reg, reg_flagThenResult, if_pos rfl]
  case flag => rw [advance_reg, reg_flagThenResult, if_neg (Ne.symm hx), if_pos rfl]

/-- A subtraction leaves the exact difference modulo 256 and reports no borrow. -/
theorem exec_subtracts {a d : Byte} (h : exec i s = .next (s.flagThenResult x (subResult a d) (noBorrow a d)).advance) :
    ∃ t, exec i s = .next t ∧ ((t.reg x).toNat : Int) = ((a.toNat : Int) - (d.toNat : Int)) % 256 ∧
      (x ≠ flagReg → (t.reg flagReg).toNat = (if d.toNat ≤ a.toNat then 1 else 0)) ∧ t.pc = s.pc + 2 ∧
      OnlyRegsAndPc [x, flagReg] s t := by
  obtain ⟨t, ht, hdest, hflag, hpc, hframe⟩ := exec_writes_flag_then_dest h
  exact ⟨t, ht, by rw [hdest, subResult_toInt], fun hx => by rw [hflag hx, noBorrow, flagByte_decide_toNat], hpc, hframe⟩

end Shapes

/-- The flag of SHR as a number: the bit shifted out. -/
theorem flagByte_shrOut_toNat (b : Byte) : (flagByte (shrOut b)).toNat = b.toNat % 2 := by
  rw [shrOut_eq, flagByte_decide_toNat]
  split <;> omega

/-- The flag of SHL as a number: the bit shifted out. -/
theorem flagByte_shlOut_toNat (b : Byte) : (flagByte (shlOut b)).toNat = b.toNat / 128 := by
  have hb : b.toNat < 256 := b.isLt
  rw [shlOut_eq, flagByte_decide_toNat]
  split <;> omega

/-- Settles O23: both are subtractions, with minuend and subtrahend the other way round. -/
theorem subtractionsReportNoBorrow : Obligations.SubtractionsReportNoBorrow :=
  fun s x y => ⟨exec_subtracts (exec_subReg s x y), exec_subtracts (exec_subnReg s x y)⟩

/-- Settles O24: the result is a function of Vy alone, and the flag is the bit it loses. -/
theorem shiftsTakeTheirSourceFromVy : Obligations.ShiftsTakeTheirSourceFromVy := by
  intro s x y
  constructor
  · obtain ⟨t, ht, hdest, hflag, hpc, hframe⟩ := exec_writes_flag_then_dest (exec_shrReg s x y)
    exact ⟨t, ht, by rw [hdest, shrResult_toNat], fun hx => by rw [hflag hx, flagByte_shrOut_toNat], hpc, hframe⟩
  · obtain ⟨t, ht, hdest, hflag, hpc, hframe⟩ := exec_writes_flag_then_dest (exec_shlReg s x y)
    exact ⟨t, ht, by rw [hdest, shlResult_toNat], fun hx => by rw [hflag hx, flagByte_shlOut_toNat], hpc, hframe⟩

/-! ### What is left in a register -/

section RegAfter
variable {i : Instr} {s : State} {x r : Reg} {b e : Byte} {c : Bool}

theorem regAfter_dest (h : exec i s = .next (s.setReg x b).advance) (hb : b = e) : RegAfter i s x e :=
  ⟨_, h, by rw [advance_reg, reg_setReg_same, hb]⟩

theorem regAfter_other (h : exec i s = .next (s.setReg x b).advance) (hr : x ≠ r) (he : s.reg r = e) : RegAfter i s r e :=
  ⟨_, h, by rw [advance_reg, reg_setReg_ne s b hr, he]⟩

/-- Result, then flag: V15 is the flag, whatever the destination. -/
theorem regAfter_late_flag (h : exec i s = .next (s.resultThenFlag x b c).advance) (he : flagByte c = e) :
    RegAfter i s flagReg e :=
  ⟨_, h, by rw [advance_reg, reg_flagReg_resultThenFlag, he]⟩

theorem regAfter_early_dest (h : exec i s = .next (s.resultThenFlag x b c).advance) (hx : x ≠ flagReg) (hb : b = e) :
    RegAfter i s x e :=
  ⟨_, h, by rw [advance_reg, reg_dest_resultThenFlag s x b c hx, hb]⟩

/-- Flag, then result: the destination is the result, V15 or not. -/
theorem regAfter_late_dest (h : exec i s = .next (s.flagThenResult x b c).advance) (hb : b = e) : RegAfter i s x e := by
  obtain ⟨t, ht, hdest, -⟩ := exec_writes_flag_then_dest h
  exact ⟨t, ht, hdest.trans hb⟩

theorem regAfter_early_flag (h : exec i s = .next (s.flagThenResult x b c).advance) (hx : x ≠ flagReg)
    (he : flagByte c = e) : RegAfter i s flagReg e := by
  obtain ⟨t, ht, -, hflag, -⟩ := exec_writes_flag_then_dest h
  exact ⟨t, ht, (hflag hx).trans he⟩

end RegAfter

/-! ### Flags as bytes -/

/-- The flag of a decidable condition, as a byte (R25). -/
theorem flagByte_decide (p : Prop) [Decidable p] : flagByte (decide p) = if p then 1 else 0 := by
  by_cases hp : p <;> simp [flagByte, hp]

theorem flagByte_carryOut (a b : Byte) : flagByte (carryOut a b) = if 255 < a.toNat + b.toNat then 1 else 0 :=
  flagByte_decide _

theorem flagByte_carryOut_self (b : Byte) : flagByte (carryOut b b) = if 255 < 2 * b.toNat then 1 else 0 := by
  rw [flagByte_carryOut, Nat.two_mul]

theorem flagByte_noBorrow (a b : Byte) : flagByte (noBorrow a b) = if b.toNat ≤ a.toNat then 1 else 0 :=
  flagByte_decide _

theorem flagByte_shrOut (b : Byte) : flagByte (shrOut b) = b &&& 1 := by
  apply BitVec.eq_of_toNat_eq
  rw [flagByte_shrOut_toNat, BitVec.toNat_and]
  exact (Nat.and_one_is_mod b.toNat).symm

theorem flagByte_shlOut (b : Byte) : flagByte (shlOut b) = (b >>> 7) &&& 1 := by
  have hb : b.toNat < 256 := b.isLt
  apply BitVec.eq_of_toNat_eq
  rw [flagByte_shlOut_toNat, BitVec.toNat_and, BitVec.toNat_ushiftRight, Nat.shiftRight_eq_div_pow]
  refine Eq.trans ?_ (Nat.and_one_is_mod (b.toNat / 2 ^ 7)).symm
  omega

/-- A byte minus itself is 0. -/
theorem subResult_self (b : Byte) : subResult b b = 0 := by rw [subResult_eq, BitVec.sub_self]; rfl

/-! ### The rows of the table (R134) -/

section Rows
variable {s : State} {x y : Reg} {f a b : Byte} {i : Reg → Reg → Instr} {op : Byte → Byte → Byte}

/-- A logic row: V15 ends 0, and any other destination takes the result. -/
theorem logic_row (hexec : ∀ x y, exec (i x y) s = .next (s.resultThenFlag x (op (s.reg x) (s.reg y)) false).advance)
    (hx : x ≠ flagReg) (hf : s.reg flagReg = f) (ha : s.reg x = a) :
    RegAfter (i flagReg y) s flagReg 0 ∧ RegAfter (i x flagReg) s x (op a f) ∧ RegAfter (i x flagReg) s flagReg 0 ∧
      RegAfter (i flagReg flagReg) s flagReg 0 :=
  ⟨regAfter_late_flag (hexec _ _) rfl, regAfter_early_dest (hexec _ _) hx (by rw [ha, hf]),
    regAfter_late_flag (hexec _ _) rfl, regAfter_late_flag (hexec _ _) rfl⟩

/-- A row whose result is written last: V15 as the destination takes the result, and any other leaves the flag in V15. -/
theorem result_last_row {flag : Byte → Byte → Bool}
    (hexec : ∀ x y, exec (i x y) s = .next (s.flagThenResult x (op (s.reg x) (s.reg y)) (flag (s.reg x) (s.reg y))).advance)
    (hx : x ≠ flagReg) (hf : s.reg flagReg = f) (ha : s.reg x = a) (hb : s.reg y = b) :
    RegAfter (i flagReg y) s flagReg (op f b) ∧ RegAfter (i x flagReg) s x (op a f) ∧
      RegAfter (i x flagReg) s flagReg (flagByte (flag a f)) ∧ RegAfter (i flagReg flagReg) s flagReg (op f f) :=
  ⟨regAfter_late_dest (hexec _ _) (by rw [hf, hb]), regAfter_late_dest (hexec _ _) (by rw [ha, hf]),
    regAfter_early_flag (hexec _ _) hx (by rw [ha, hf]), regAfter_late_dest (hexec _ _) (by rw [hf])⟩

end Rows

/-- Settles O26: 8xy0 writes no flag; 8xy1 to 8xy4 write it last, the other rows first. -/
theorem outcomesWhenTheFlagRegisterIsAnOperand : Obligations.OutcomesWhenTheFlagRegisterIsAnOperand := by
  intro s x y f a b hx hy hf ha hb
  refine ⟨?copy, logic_row (exec_orReg s) hx hf ha, logic_row (exec_andReg s) hx hf ha, logic_row (exec_xorReg s) hx hf ha,
    ?add, ?sub, ?shr, ?subn, ?shl⟩
  case copy =>
    exact ⟨regAfter_dest (exec_ldReg s _ _) hb, regAfter_dest (exec_ldReg s _ _) hf,
      regAfter_other (exec_ldReg s _ _) hx hf, regAfter_dest (exec_ldReg s _ _) hf⟩
  case add =>
    exact ⟨regAfter_late_flag (exec_addReg s _ _) (by rw [hf, hb, flagByte_carryOut]),
      regAfter_early_dest (exec_addReg s _ _) hx (by rw [ha, hf, addResult_eq]),
      regAfter_late_flag (exec_addReg s _ _) (by rw [ha, hf, flagByte_carryOut]),
      regAfter_late_flag (exec_addReg s _ _) (by rw [hf, flagByte_carryOut_self])⟩
  case sub =>
    simpa only [subResult_self, subResult_eq, flagByte_noBorrow] using
      result_last_row (op := subResult) (flag := noBorrow) (exec_subReg s) hx hf ha hb
  case shr =>
    simpa only [flagByte_shrOut] using
      result_last_row (op := fun _ d => d >>> 1) (flag := fun _ d => shrOut d) (exec_shrReg s) hx hf ha hb
  case subn =>
    simpa only [subResult_self, subResult_eq, flagByte_noBorrow] using
      result_last_row (op := fun d e => subResult e d) (flag := fun d e => noBorrow e d) (exec_subnReg s) hx hf ha hb
  case shl =>
    simpa only [flagByte_shlOut] using
      result_last_row (op := fun _ d => d <<< 1) (flag := fun _ d => shlOut d) (exec_shlReg s) hx hf ha hb

end Sys2Proof.Machine
end

section
/-!
PROOFS. Loads and stores (43_index_memory.md): the glyph address of R142, the decimal digits of R143, and the bulk transfers of R144
and R145.
-/

namespace Sys2Proof.Machine

/-- Settles O28: Fx29 is a write of I with the glyph address. -/
theorem glyphAddressIsFiveBytesPerDigit : Obligations.GlyphAddressIsFiveBytesPerDigit := by
  intro s x
  obtain ⟨t, ht, hi, hpc, hframe⟩ := exec_writes_i (exec_ldF s x)
  exact ⟨t, ht, by rw [hi, glyphAddr_toNat], hpc, hframe⟩

/-! ### The decimal digits (R143) -/

/-- The three bytes of the decimal store are the three digits. -/
theorem decimalDigits_toNat (b : Byte) : ((decimalDigits b)[0]).toNat = b.toNat / 100 ∧
    ((decimalDigits b)[1]).toNat = b.toNat / 10 % 10 ∧ ((decimalDigits b)[2]).toNat = b.toNat % 10 := by
  have hb : b.toNat < 256 := b.isLt
  simp only [decimalDigits, List.getElem_cons_zero, List.getElem_cons_succ, BitVec.toNat_ofNat]
  omega

/-- Settles O29: each digit is read back where it was stored (`read_writeBytes_add`), and the store keeps the rest. -/
theorem decimalDigitsAreStored : Obligations.DecimalDigitsAreStored := by
  refine fun s x => ⟨fun hin => ?stored, exec_ldB_outside⟩
  have hrange : s.i.toNat + (decimalDigits (s.reg x)).length ≤ Config.memSize := by
    rw [length_decimalDigits, Config.memSize]
    omega
  have hread := read_writeBytes_add s.mem s.i.toNat (decimalDigits (s.reg x)) hrange
  obtain ⟨hhundreds, htens, hones⟩ := decimalDigits_toNat (s.reg x)
  exact ⟨_, exec_ldB_of_range hin, (congrArg BitVec.toNat (hread 0 (by simp))).trans hhundreds,
    (congrArg BitVec.toNat (hread 1 (by simp))).trans htens, (congrArg BitVec.toNat (hread 2 (by simp))).trans hones,
    memKeptOutside_storeBytes s s.i.toNat (decimalDigits (s.reg x)), fun _ _ => rfl, rfl, rfl, rfl⟩

/-! ### The bulk transfers (R144, R145) -/

section Transfer
variable {s : State} {x : Reg}

/-- Within memory the advanced I does not wrap. -/
theorem iAfterTransfer_toNat (hin : s.i.toNat + x.toNat ≤ 0xFFF) :
    (s.iAfterTransfer x).toNat = s.i.toNat + x.toNat + 1 := by
  rw [State.iAfterTransfer, transferCount, BitVec.toNat_add, BitVec.toNat_ofNat]
  omega

/-- A register of a bulk store is read back from its own place. -/
theorem read_stored_reg (hin : s.i.toNat + x.toNat ≤ 0xFFF) {r : Reg} (hr : r.toNat ≤ x.toNat) :
    (s.mem.writeBytes s.i.toNat (s.regsUpTo x)).read (s.i.toNat + r.toNat) = s.reg r := by
  have hrange : s.i.toNat + (s.regsUpTo x).length ≤ Config.memSize := by
    rw [length_regsUpTo, Config.memSize]
    omega
  have hr' : r.toNat < (s.regsUpTo x).length := by
    rw [length_regsUpTo]
    omega
  rw [read_writeBytes_add _ _ _ hrange _ hr', getElem_regsUpTo, BitVec.ofNat_toNat, BitVec.setWidth_eq]

/-- A register up to `Vx` is loaded from its own place, and one above it is kept. -/
theorem reg_loadedRegs (s : State) (x r : Reg) : State.reg { s with v := s.loadedRegs x } r =
    if r.toNat ≤ x.toNat then s.mem.read (s.i.toNat + r.toNat) else s.reg r := by
  have hx : x.toNat < 16 := x.isLt
  have hload := reg_loadEach_range s s.i.toNat (transferCount x) hx r
  simp only [transferCount, Nat.lt_succ_iff] at hload
  exact hload

end Transfer

/-- Settles O30: each register is read back from its own place, and the store keeps the rest. -/
theorem registersAreStoredFromI : Obligations.RegistersAreStoredFromI := by
  refine fun s x => ⟨fun hin => ?stored, exec_storeRegs_outside⟩
  have hframe := memKeptOutside_storeBytes s s.i.toNat (s.regsUpTo x)
  rw [length_regsUpTo] at hframe
  exact ⟨_, exec_storeRegs_of_range hin, fun _ hr => read_stored_reg hin hr, iAfterTransfer_toNat hin, hframe,
    fun _ _ => rfl, rfl, rfl⟩

/-- Settles O31: the two branches of `reg_loadedRegs`. -/
theorem registersAreLoadedFromI : Obligations.RegistersAreLoadedFromI := by
  refine fun s x => ⟨fun hin => ?loaded, exec_loadRegs_outside⟩
  exact ⟨_, exec_loadRegs_of_range hin, fun r hr => (reg_loadedRegs s x r).trans (if_pos hr),
    fun r hr => (reg_loadedRegs s x r).trans (if_neg (Nat.not_le.mpr hr)), iAfterTransfer_toNat hin, fun _ => rfl, rfl, rfl⟩

/-- Settles O32: each register is loaded from the place where it was stored (`read_stored_reg`), and the load keeps memory. -/
theorem loadingStoredRegistersRestoresThem : Obligations.LoadingStoredRegistersRestoresThem := by
  intro s x w hin
  refine ⟨_, _, exec_storeRegs_of_range hin, exec_loadRegs_of_range hin, fun r hr => ?restored, rfl, fun _ => rfl⟩
  exact (reg_loadedRegs _ x r).trans ((if_pos hr).trans (read_stored_reg hin hr))

end Sys2Proof.Machine
end

section
/-!
PROOFS. The keypad (45_keypad_timers.md): the key skips of R160 and R161, and the start of a wait of R162.
-/

namespace Sys2Proof.Machine

/-- Settles O37: Ex9E skips when the named key is down, ExA1 unless it is; no key is the fault. -/
theorem keySkipsTestTheNamedKey : Obligations.KeySkipsTestTheNamedKey := by
  refine fun s x => ⟨fun k hk => ?named, fun hnone => ⟨exec_skp_of_no_key hnone, exec_sknp_of_no_key hnone⟩⟩
  have hup : (!s.key k) = true ↔ ¬ s.key k = true := by rw [Bool.not_eq_true', Bool.not_eq_true]
  exact ⟨exec_skips_when (exec_skp_of_key hk) Iff.rfl, exec_skips_unless (exec_sknp_of_key hk) hup⟩

/-- Settles O39: the wait is one write of WAITREG and ES, after which ES is not RUNNING. -/
theorem keyWaitBeginsAndSuspendsSteps : Obligations.KeyWaitBeginsAndSuspendsSteps := by
  intro s x
  have hsuspended : step (s.awaitKey x).advance = .next (s.awaitKey x).advance := by
    apply step_of_not_running
    rw [State.advance_eq, State.setPc_es, State.awaitKey_es]
    decide
  exact ⟨_, exec_ldVxK, rfl, rfl, rfl, fun _ _ => rfl, fun _ => rfl, rfl, hsuspended⟩

end Sys2Proof.Machine
end

section
/-!
PROOFS. Sprite draw and the display output (44_display.md, 10_state.md): what a draw does to each pixel and to V15 (R151, R152), that
a second draw undoes it, and the order of the output (R35, R38).
-/

namespace Sys2Proof.Machine

variable {s t : State} {x y : Reg} {n : Rows}

/-! ### The sprite's pixels -/

/-- The bytes of the sprite: `n` from I on, and no 1 beyond them. -/
theorem getD_spriteBytes (s : State) (n : Rows) (q : Nat) :
    (s.spriteBytes n).getD q 0 = if q < n.toNat then s.mem.read (s.i.toNat + q) else 0 := by
  rw [List.getD_eq_getElem?_getD]
  split
  case isTrue hq =>
    have hlen : q < (s.spriteBytes n).length := by rw [length_spriteBytes]; exact hq
    rw [List.getElem?_eq_getElem hlen, Option.getD_some]
    exact getElem_readBytes s.mem s.i.toNat n.toNat q hlen
  case isFalse hq =>
    rw [List.getElem?_eq_none (by rw [length_spriteBytes]; omega), Option.getD_none]

/-- The sprite of a state as the loops of R151 see it, at a pixel. -/
def spriteAt (s : State) (x y : Reg) (n : Rows) (r c : Nat) : Bool :=
  spritePixel (s.spriteBytes n) (startRow (s.reg y)) (startCol (s.reg x)) r c

/-- The statements' sprite is the loops' sprite: row `q` is `r` minus the starting row, column `j` is `c` minus the starting
column. -/
theorem spriteCovers_iff (s : State) (x y : Reg) (n : Rows) (r c : Nat) :
    SpriteCovers s x y n r c ↔ spriteAt s x y n r c = true := by
  rw [spriteAt, spritePixel_iff, spriteBit_iff, getD_spriteBytes, startRow, startCol]
  constructor
  · rintro ⟨q, j, hq, hj, rfl, rfl, hbit⟩
    rw [Nat.add_sub_cancel_left, Nat.add_sub_cancel_left, if_pos hq]
    exact ⟨⟨Nat.le_add_right _ _, Nat.le_add_right _ _⟩, hj, hbit⟩
  · rintro ⟨⟨hr, hc⟩, hj, hbit⟩
    split at hbit
    case isTrue hq => exact ⟨_, _, hq, hj, (Nat.add_sub_cancel' hr).symm, (Nat.add_sub_cancel' hc).symm, hbit⟩
    case isFalse => simp at hbit

/-- A collision is a collision of the loops. -/
theorem spriteCollides_iff (s : State) (x y : Reg) (n : Rows) :
    SpriteCollides s x y n ↔ (s.drawSprite x y n).hit = true := by
  simp only [SpriteCollides, spriteCovers_iff, drawSprite_hit, spriteAt]

/-! ### One draw -/

/-- The state a draw within memory leaves. -/
def State.drawn (s : State) (x y : Reg) (n : Rows) : State :=
  ((s.setDisp (s.drawSprite x y n).disp).setReg flagReg (flagByte (s.drawSprite x y n).hit)).advance

theorem drawn_pixel {r c : Nat} (hr : r < 32) (hc : c < 64) :
    (s.drawn x y n).disp.pixel r c = (s.disp.pixel r c ^^ spriteAt s x y n r c) :=
  drawSprite_pixel s x y n r c hr hc

theorem drawn_flag (s : State) (x y : Reg) (n : Rows) :
    (s.drawn x y n).reg flagReg = flagByte (s.drawSprite x y n).hit := by
  rw [State.drawn, advance_reg, reg_setReg_same]

/-- Settles O34: each pixel is XORed with the sprite's (`drawn_pixel`), and V15 is the hit of the loops. -/
theorem drawXorsTheClippedSpriteAndReportsCollision : Obligations.DrawXorsTheClippedSpriteAndReportsCollision := by
  refine fun s x y n => ⟨fun hin => ⟨s.drawn x y n, exec_drw_of_range hin, fun r c hr hc => ?pixel, ?collides, ?clear,
    regsKeptExcept_setReg s flagReg _, rfl, fun _ => rfl, rfl, rfl⟩, exec_drw_outside⟩
  case pixel =>
    rw [drawn_pixel hr hc, spriteCovers_iff, Bool.not_eq_true]
    exact ⟨fun hcovers => by rw [hcovers, Bool.xor_true], fun hnot => by rw [hnot, Bool.xor_false]⟩
  case collides =>
    intro hcollides
    rw [drawn_flag, (spriteCollides_iff s x y n).mp hcollides]
    rfl
  case clear =>
    intro hnot
    rw [spriteCollides_iff, Bool.not_eq_true] at hnot
    rw [drawn_flag, hnot]
    rfl

/-! ### Two draws -/

/-- With coordinates in other registers than V15 a draw leaves the sprite as it is. -/
theorem spriteAt_drawn (hx : x ≠ flagReg) (hy : y ≠ flagReg) (r c : Nat) :
    spriteAt (s.drawn x y n) x y n r c = spriteAt s x y n r c := by
  have hkept : RegsKeptExcept [flagReg] s (s.drawn x y n) := regsKeptExcept_setReg s flagReg _
  have hbytes : (s.drawn x y n).spriteBytes n = s.spriteBytes n := rfl
  rw [spriteAt, hkept x (by simpa using hx), hkept y (by simpa using hy), hbytes, spriteAt]

/-- Settles O35: the second XOR undoes the first; a pixel that the first draw set is under the sprite, so the second hits it. -/
theorem drawingTwiceRestoresTheDisplay : Obligations.DrawingTwiceRestoresTheDisplay := by
  intro s x y n hx hy hin
  refine ⟨s.drawn x y n, (s.drawn x y n).drawn x y n, exec_drw_of_range hin, exec_drw_of_range hin, ?restored, ?collides⟩
  case restored =>
    refine display_ext fun r c => ?_
    by_cases hrc : r < 32 ∧ c < 64
    · rw [drawn_pixel hrc.1 hrc.2, drawn_pixel hrc.1 hrc.2, spriteAt_drawn hx hy, Bool.xor_assoc, Bool.xor_self,
        Bool.xor_false]
    · rw [pixel_outside _ hrc, pixel_outside _ hrc]
  case collides =>
    rintro ⟨r, c, hr, hc, hunset, hset⟩
    have hcovered : spriteAt (s.drawn x y n) x y n r c = true := by
      rw [drawn_pixel hr hc, hunset, Bool.false_xor] at hset
      rw [spriteAt_drawn hx hy, hset]
    have hhit : ((s.drawn x y n).drawSprite x y n).hit = true :=
      (drawSprite_hit _ x y n).mpr ⟨r, c, hr, hc, hcovered, hset⟩
    rw [drawn_flag, hhit]
    rfl

/-! ### The output (R35, R38) -/

/-- The output is the display's rows, one after the other. -/
theorem displayOut_eq (s : State) : displayOut s = s.disp.flatten.toList := by
  rw [displayOut, List.flatMap_def]
  simp only [Vector.toList, Vector.flatten, Array.toList_flatten, Array.toList_map, List.map_map]
  rfl

/-- Settles O36: pixel `64 r + c` of the rows one after the other is column c of row r (`Vector.getElem_flatten`). -/
theorem displayOutputIsRowMajor : Obligations.DisplayOutputIsRowMajor := by
  intro s
  rw [displayOut_eq]
  refine ⟨Vector.length_toList, fun r c hr hc => ?_⟩
  have hrow : (64 * r + c) / 64 = r := by omega
  have hcol : (64 * r + c) % 64 = c := by omega
  rw [pixel_of_lt s.disp hr hc, Vector.getElem?_toList, Vector.getElem?_eq_getElem (by omega), Vector.getElem_flatten]
  simp only [hrow, hcol]

end Sys2Proof.Machine
end
